-- ==== Sys2Proof/Word.lean ====
section
/-! DEFINITION. The widths of the datapath's values (spec 00_scope.md R6, R8; 10_state.md R30). -/

namespace Sys2Proof

/-- A 32-bit datapath value: a register, the PC, an ALU operand, an instruction word (R6, R8). -/
abbrev Word := BitVec 32

/-- One byte of the byte-addressable data memory (R50). -/
abbrev Byte := BitVec 8

/-- A 5-bit index into the 32 general registers (R21, R75). -/
abbrev RegIdx := BitVec 5

/-- The 5 undecoded bits 10 to 6 of an R-format word, `shamt` in the spec (R72). -/
abbrev Shamt := BitVec 5

/-- The primary opcode, bits 31 to 26 (R70). -/
abbrev Opcode := BitVec 6

/-- The function field, bits 5 to 0 (R70). -/
abbrev Funct := BitVec 6

/-- The 16-bit immediate field, bits 15 to 0 (R70). -/
abbrev Imm16 := BitVec 16

/-- The 26-bit word index of a J-format word, bits 25 to 0 (R72). -/
abbrev Target := BitVec 26

/-- The 2-bit ALUOp of the main control ROM (R6). -/
abbrev AluOp := BitVec 2

/-- The 4-bit operation code of the arithmetic unit (R6). -/
abbrev AluCode := BitVec 4

end Sys2Proof
end

