-- ==== Sys2Proof/Syntax.lean ====
section
/-! DEFINITION. The instructions: one constructor per row of spec/opcode_table.json. Operands stand in the order of the
assembly syntax of 30_encoding.md R81. -/

namespace Sys2Proof

/-- The instruction set (R2, R76, R77). An R-format instruction keeps bits 10 to 6 of its word (`shamt`), which no rule
decodes (R72), so that no bit of a word is lost (log 15). -/
inductive Instr where
  /-- `add $rd, $rs, $rt` (R160). -/
  | add (rd rs rt : RegIdx) (shamt : Shamt)
  /-- `sub $rd, $rs, $rt` (R161). -/
  | sub (rd rs rt : RegIdx) (shamt : Shamt)
  /-- `and $rd, $rs, $rt` (R162). -/
  | and (rd rs rt : RegIdx) (shamt : Shamt)
  /-- `or $rd, $rs, $rt` (R163). -/
  | or (rd rs rt : RegIdx) (shamt : Shamt)
  /-- `slt $rd, $rs, $rt` (R164). -/
  | slt (rd rs rt : RegIdx) (shamt : Shamt)
  /-- Opcode 0 with a function code outside {32, 34, 36, 37, 42} (R165). -/
  | rFallback (rd rs rt : RegIdx) (shamt : Shamt) (funct : Funct)
  /-- `addi $rt, $rs, imm` (R180). -/
  | addi (rt rs : RegIdx) (imm : Imm16)
  /-- `lw $rt, imm($rs)` (R181). -/
  | lw (rt rs : RegIdx) (imm : Imm16)
  /-- `sw $rt, imm($rs)` (R182). -/
  | sw (rt rs : RegIdx) (imm : Imm16)
  /-- `beq $rs, $rt, off` (R200). -/
  | beq (rs rt : RegIdx) (off : Imm16)
  /-- `j idx` (R201). -/
  | j (idx : Target)
  deriving DecidableEq, Repr

/-- The two fatal errors have names, not numeric codes (60_exceptions.md R222). -/
inductive ControlErrorKind where
  /-- The main control ROM has no row for the opcode (R220). -/
  | unsupportedOpcode
  /-- The ALU control ROM has no row for the ALUOp (R221). -/
  | unsupportedALUOp
  deriving DecidableEq, Repr

end Sys2Proof
end

