-- ==== Sys2Proof/WellFormed.lean ====
section
/-! DEFINITION. Which terms of `Instr` stand for an instruction. Every operand has its field's width by its type, so the
one check is that a fallback's function code is not one of the five that name an operation (30_encoding.md R77, R79). -/

namespace Sys2Proof

/-- The five function codes the ALU control unit names under opcode 0 (R2, R77). -/
def namedFuncts : List Funct := [32, 34, 36, 37, 42]

/-- A well-formed instruction. -/
def Instr.wf : Instr → Bool
  | .rFallback _ _ _ _ funct => !namedFuncts.contains funct
  | .add .. | .sub .. | .and .. | .or .. | .slt .. => true
  | .addi .. | .lw .. | .sw .. | .beq .. | .j .. => true

end Sys2Proof
end

