-- ==== Sys2Proof/Decode.lean ====
section
/-! DEFINITION. The field decoder (30_encoding.md R70), the decoding of a word to an instruction (R76 to R79), and the
encoder, written from the formats of R72 and the opcode map of R76 and R77. -/

namespace Sys2Proof

/-- The six fields the field decoder extracts from every word, whatever its opcode (R70). -/
structure Fields where
  opcode : Opcode
  rs     : RegIdx
  rt     : RegIdx
  rd     : RegIdx
  funct  : Funct
  imm    : Imm16
  deriving DecidableEq, Repr

/-- The field decoder: a pure function of the word, with no validation (R70, R71). -/
def decodeFields (w : Word) : Fields where
  opcode := w.extractLsb' 26 6
  rs     := w.extractLsb' 21 5
  rt     := w.extractLsb' 16 5
  rd     := w.extractLsb' 11 5
  funct  := w.extractLsb' 0 6
  imm    := w.extractLsb' 0 16

/-- Bits 10 to 6, which no unit of the datapath reads (R72). -/
def shamtOf (w : Word) : Shamt := w.extractLsb' 6 5

/-- Bits 25 to 0, which the jump address calculator takes straight from the word (R72). -/
def targetOf (w : Word) : Target := w.extractLsb' 0 26

/-- The instruction of an opcode-0 word: its function field selects it (R77, R79). -/
def decodeRType (w : Word) : Instr :=
  let f := decodeFields w
  if f.funct = 32 then .add f.rd f.rs f.rt (shamtOf w)
  else if f.funct = 34 then .sub f.rd f.rs f.rt (shamtOf w)
  else if f.funct = 36 then .and f.rd f.rs f.rt (shamtOf w)
  else if f.funct = 37 then .or f.rd f.rs f.rt (shamtOf w)
  else if f.funct = 42 then .slt f.rd f.rs f.rt (shamtOf w)
  else .rFallback f.rd f.rs f.rt (shamtOf w) f.funct

/-- The instruction of a word, or the name of the error its opcode raises (R76, R78, R79). -/
def decode (w : Word) : Except ControlErrorKind Instr :=
  let f := decodeFields w
  if f.opcode = 0 then .ok (decodeRType w)
  else if f.opcode = 2 then .ok (.j (targetOf w))
  else if f.opcode = 4 then .ok (.beq f.rs f.rt f.imm)
  else if f.opcode = 8 then .ok (.addi f.rt f.rs f.imm)
  else if f.opcode = 35 then .ok (.lw f.rt f.rs f.imm)
  else if f.opcode = 43 then .ok (.sw f.rt f.rs f.imm)
  else .error .unsupportedOpcode

/-- An R-format word (R72): opcode 0, rs, rt, rd, bits 10 to 6, funct. -/
def encodeR (rs rt rd : RegIdx) (shamt : Shamt) (funct : Funct) : Word :=
  0#6 ++ rs ++ rt ++ rd ++ shamt ++ funct

/-- An I-format word (R72): opcode, rs, rt, imm. -/
def encodeI (opcode : Opcode) (rs rt : RegIdx) (imm : Imm16) : Word :=
  opcode ++ rs ++ rt ++ imm

/-- A J-format word (R72): opcode 2, target. -/
def encodeJ (idx : Target) : Word := 2#6 ++ idx

/-- The word of an instruction (R76, R77, R81). -/
def encode : Instr → Word
  | .add rd rs rt shamt => encodeR rs rt rd shamt 32
  | .sub rd rs rt shamt => encodeR rs rt rd shamt 34
  | .and rd rs rt shamt => encodeR rs rt rd shamt 36
  | .or rd rs rt shamt => encodeR rs rt rd shamt 37
  | .slt rd rs rt shamt => encodeR rs rt rd shamt 42
  | .rFallback rd rs rt shamt funct => encodeR rs rt rd shamt funct
  | .addi rt rs imm => encodeI 8 rs rt imm
  | .lw rt rs imm => encodeI 35 rs rt imm
  | .sw rt rs imm => encodeI 43 rs rt imm
  | .beq rs rt off => encodeI 4 rs rt off
  | .j idx => encodeJ idx

/-- The host's question about one row of the opcode table: the instruction read from the word whose low `nbits` bits are
those of `w`, all higher bits 0. An instruction is one whole word (R80), so there is no byte order to lay out. -/
def decodeTableWord (nbits w : Nat) : Option Instr :=
  match decode (BitVec.ofNat 32 (w % 2 ^ nbits)) with
  | .ok i => some i
  | .error _ => none

end Sys2Proof
end

