-- ==== Sys2Proof/Config.lean ====
section
/-! DEFINITION. The implementation parameters that spec 00_scope.md R6 leaves OPEN, as plain data. A state holds one
`Params` that no step changes, so that a claim about every state is a claim about every value of them (log 1). -/

namespace Sys2Proof

/-- BRANCH_ZERO_MODE (R6, R121, D1): which zero value the branch decision reads. -/
inductive BranchZeroMode where
  /-- The ALU's zero flag of step 9: the intended datapath. -/
  | aluZero
  /-- The always-zero field of the reference model: `beq` never branches. -/
  | staleZero
  deriving DecidableEq, Repr

/-- A range of byte addresses, both ends included. -/
structure Region where
  first : Word
  last  : Word
  deriving DecidableEq, Repr

/-- The open parameters of R6. `dmemValid` is DMEM_VALID: the aligned addresses that lie in one of the ranges (log 3). -/
structure Params where
  branchZero  : BranchZeroMode
  r0Hardwired : Bool
  dmemValid   : List Region
  deriving DecidableEq, Repr

end Sys2Proof
end

