-- ==== Sys2Proof/Machine/ResetChoices.lean ====
section
/-! DEFINITION. The inputs of a run that the spec leaves to the caller or leaves open (00_scope.md R6,
70_reset_and_hazards.md R240), each at the value this model names for its reset state. Every value here is a DESIGN
CHOICE of the model and no rule of the spec; where the vectors of 95_test_vectors.md have a convention it is taken. -/

namespace Sys2Proof.Machine

/-- DESIGN CHOICE, unsafe (log 1): BRANCH_ZERO_MODE at reset. -/
def resetBranchZero : BranchZeroMode := .aluZero

/-- DESIGN CHOICE, unsafe (log 2): R0_HARDWIRED at reset. -/
def resetR0Hardwired : Bool := false

/-- DESIGN CHOICE, unsafe (log 3): DMEM_VALID at reset, every aligned address. -/
def resetDmemValid : List Region := [⟨0x00000000, 0xFFFFFFFF⟩]

/-- The open parameters at reset (logs 1 to 3). -/
def resetParams : Params where
  branchZero  := resetBranchZero
  r0Hardwired := resetR0Hardwired
  dmemValid   := resetDmemValid

/-- DESIGN CHOICE, unsafe (log 4): REG_INIT at reset, all 32 registers 0. -/
def resetRegs : Vector Word 32 := Vector.replicate 32 0

/-- DESIGN CHOICE, unsafe (log 6): ENTRY at reset; the spec says "typically 0". -/
def resetEntry : Word := 0

/-- DESIGN CHOICE, unsafe (log 7): MODE at reset, no bit set. -/
def resetMode : Nat := 0

end Sys2Proof.Machine
end

