-- ==== Sys2Proof/Machine/State.lean ====
section
/-! DEFINITION. The state of the machine between two cycles (10_state.md R20), the reasons a cycle stops, and the state
at simulation start (70_reset_and_hazards.md R240). -/

namespace Sys2Proof.Machine

/-- The data memory's listed bytes: (address, byte) pairs. Its canonical form is `Memory.wf` of Machine/Memory.lean. -/
abbrev Memory := List Host.Cell

/-- A fatal control error with what it carries (60_exceptions.md R220 to R222, D16). An error of the hardware, not a
departure from it. -/
inductive ControlError where
  /-- Raised by the main control ROM in step 5 for an opcode outside {0, 2, 4, 8, 35, 43}. Safe: the spec's own stop. -/
  | unsupportedOpcode (pc instr : Word) (opcode : Opcode)
  /-- Raised by the ALU control ROM in step 6 for ALUOp 3; no word raises it (R97). Safe: the spec's own stop. -/
  | unsupportedALUOp (pc instr : Word) (aluOp : AluOp)
  deriving DecidableEq, Repr

/-- The error's name (R222). -/
def ControlError.kind : ControlError → ControlErrorKind
  | .unsupportedOpcode .. => .unsupportedOpcode
  | .unsupportedALUOp .. => .unsupportedALUOp

/-- A model fault of the spec (60_exceptions.md R226): the document gives the situation no meaning. -/
inductive ModelFault where
  /-- Raised by the fetch of step 4 at a PC that is not a multiple of 4 and not exhausted (R53, D7). Safe. -/
  | misalignedFetch (pc : Word)
  /-- Raised by `lw` or `sw` in step 10 at an address that is not a multiple of 4 (R56, R57, D8). Safe. -/
  | misalignedData (addr : Word)
  /-- Raised by `lw` or `sw` in step 10 at an aligned address outside DMEM_VALID (R56, R57, D9). Safe. -/
  | dataOutOfRange (addr : Word)
  /-- Raised by the arithmetic unit in step 9 for a code other than 0, 1, 2, 6, 7; no run reaches it (R111). Safe. -/
  | unreachableALUCode (op : AluCode)
  deriving DecidableEq, Repr

/-- Why a cycle does not complete (41_cycle_sequencer.md R131). After any of these the state is the one the cycle's
step 1 commit left, `State.commit` (R137, log 10). -/
inductive Fault where
  /-- The PC is past the ending address in step 3: the run is done, no error (R134). Safe: the spec's own stop. -/
  | programEnd
  /-- A fatal control error of steps 5 and 6 (R220, R221). Safe: the spec's own stop. -/
  | control (e : ControlError)
  /-- A model fault of steps 4, 9 and 10 (R226). Safe: the model stops where the document gives no meaning. -/
  | model (f : ModelFault)
  deriving DecidableEq, Repr

/-- Why the model gives an instruction no meaning. No arm of `exec` raises one. -/
inductive Refusal where
  /-- The instruction has no meaning yet. Raised by no arm of this model. Safe. -/
  | notModelled (mnemonic : String)
  deriving DecidableEq, Repr

/-- The state between two cycles: the tuple of R20, and the open parameters of R6 (log 1). -/
structure State where
  /-- x[0..31], the committed register values (R20, R21). -/
  regs    : Vector Word 32
  /-- The pending register write (R20, R23). -/
  pendReg : Option (RegIdx × Word)
  /-- The committed program counter (R20, R24). -/
  pc      : Word
  /-- The pending PC write (R20, R25). -/
  pendPc  : Option Word
  /-- The instruction memory, IMAGE: word i stands at byte address 4i (R20, R51). -/
  imem    : List Word
  /-- The data memory (R20, R55). -/
  dmem    : Memory
  /-- The mode bitmask (R20, R27), of unstated width (log 7). -/
  mode    : Nat
  /-- The completed-cycle count of the current run (R20, R33). -/
  cycles  : Nat
  /-- The open parameters of R6: configuration, changed by no step (log 1). -/
  params  : Params
  deriving DecidableEq, Repr

/-- The state at simulation start, from the inputs the caller supplies (R240, R242): nothing is pending (D22). -/
def State.start (image : List Word) (entry : Word) (regInit : Vector Word 32) (dmemInit : Memory) (mode : Nat)
    (params : Params) : State where
  regs    := regInit
  pendReg := none
  pc      := entry
  pendPc  := none
  imem    := image
  dmem    := dmemInit
  mode    := mode
  cycles  := 0
  params  := params

/-- The machine at simulation start with the inputs Machine/ResetChoices.lean names, no program loaded (log 8) and no
data byte listed (log 5). -/
def State.reset : State :=
  State.start [] resetEntry resetRegs [] resetMode resetParams

end Sys2Proof.Machine
end

