-- ==== Sys2Proof/Machine/Memory.lean ====
section
/-! DEFINITION. Data memory as bytes in canonical form, and the aligned 32-bit word access built on it, which is the only
access the datapath makes (20_memory.md R58). -/

namespace Sys2Proof.Machine

/-- What a byte no one has listed reads as. DESIGN CHOICE, unsafe (log 5): DMEM_INIT is a run input the spec leaves
open (R56, D11); other contents are listed in the initial memory. -/
def Memory.unlisted : Byte := 0

/-- The canonical form: addresses strictly rising and inside the 32-bit space, no entry equal to the unlisted byte. -/
abbrev Memory.wf (m : Memory) : Prop :=
  m.Pairwise (fun c d => c.1 < d.1) ∧ ∀ c ∈ m, c.1 < 2 ^ 32 ∧ c.2 ≠ Memory.unlisted

/-- The byte at an address. -/
def Memory.readByte : Memory → Nat → Byte
  | [], _ => Memory.unlisted
  | c :: m, a => if c.1 = a then c.2 else Memory.readByte m a

/-- Put a byte in front of a memory, unless an unlisted address reads so anyway. -/
def Memory.cons (a : Nat) (v : Byte) (m : Memory) : Memory :=
  if v = Memory.unlisted then m else (a, v) :: m

/-- Write one byte, keeping the canonical form. -/
def Memory.writeByte : Memory → Nat → Byte → Memory
  | [], a, v => Memory.cons a v []
  | c :: m, a, v =>
    if a < c.1 then Memory.cons a v (c :: m)
    else if a = c.1 then Memory.cons a v m
    else c :: Memory.writeByte m a v

/-- Byte k of a word. DESIGN CHOICE, safe: byte 0, at the lowest address, is the least significant; no program can
observe the order (R60, log 9). -/
def byteOf (v : Word) (k : Nat) : Byte := v.extractLsb' (8 * k) 8

/-- The word whose bytes, from the lowest address up, are given. -/
def wordOfBytes (b0 b1 b2 b3 : Byte) : Word := b3 ++ b2 ++ b1 ++ b0

/-- `dmem[addr]`: the 32-bit word at a byte address (R55, R56). -/
def Memory.readWord (m : Memory) (addr : Word) : Word :=
  let a := addr.toNat
  wordOfBytes (m.readByte a) (m.readByte (a + 1)) (m.readByte (a + 2)) (m.readByte (a + 3))

/-- `dmem[addr] := v` (R57). -/
def Memory.writeWord (m : Memory) (addr v : Word) : Memory :=
  let a := addr.toNat
  ((((m.writeByte a (byteOf v 0)).writeByte (a + 1) (byteOf v 1)).writeByte (a + 2) (byteOf v 2)).writeByte (a + 3)
    (byteOf v 3))

end Sys2Proof.Machine
end

