-- ==== Sys2Proof/Machine/Ops.lean ====
section
/-! DEFINITION. The shared operations over the state: register reads, staged writes and the commit (10_state.md R22 to
R25), instruction fetch (20_memory.md R51 to R53), the data-memory port (R35, R56 to R59), and the one way a cycle stops. -/

namespace Sys2Proof.Machine

/-- The outcome of a step of this machine. -/
abbrev Outcome := Host.Outcome State Fault Refusal

/-- Abort the cycle and the run with a fatal control error (60_exceptions.md R220, R221). There is no trap entry: no
state is saved, no mode changes and no control is transferred (R223), so this is all that raising an error does. -/
def abort (e : ControlError) : Outcome := .fault (.control e)

/-- Stop with a model fault (R226). -/
def modelStop (f : ModelFault) : Outcome := .fault (.model f)

/-- `addr[1:0] = 0`: a multiple of 4. -/
def aligned (addr : Word) : Bool := addr.extractLsb' 0 2 == 0

/-- Whether a range holds an address. -/
def regionHas (r : Region) (addr : Word) : Bool := r.first ≤ addr && addr ≤ r.last

/-- DMEM_VALID: the aligned addresses that exist (R55, D9). -/
def dmemExists (p : Params) (addr : Word) : Bool :=
  aligned addr && p.dmemValid.any (fun r => regionHas r addr)

/-! ### Registers -/

/-- A read port: the committed value, or 0 for index 0 where register 0 is hardwired (R22). -/
def State.readReg (s : State) (i : RegIdx) : Word :=
  if s.params.r0Hardwired && i == 0 then 0 else s.regs[i.toNat]'i.isLt

/-- Stage a register write (R23). -/
def State.stageReg (s : State) (i : RegIdx) (v : Word) : State := { s with pendReg := some (i, v) }

/-- Stage a PC write (R25). -/
def State.stagePc (s : State) (target : Word) : State := { s with pendPc := some target }

/-- The address the next cycle fetches from: the pending PC write where there is one (R25). -/
def State.nextPc (s : State) : Word := s.pendPc.getD s.pc

/-- `commit_pc` (R25). -/
def State.commitPc (s : State) : State := { s with pc := s.nextPc, pendPc := none }

/-- The registers with the pending write in them: one to register 0 is discarded where it is hardwired (R23). -/
def State.committedRegs (s : State) : Vector Word 32 :=
  match s.pendReg with
  | some (i, v) => if s.params.r0Hardwired && i == 0 then s.regs else s.regs.set i.toNat v i.isLt
  | none => s.regs

/-- `commit_reg` (R23). -/
def State.commitReg (s : State) : State := { s with regs := s.committedRegs, pendReg := none }

/-- Step 1 of every cycle: the clock edge (41_cycle_sequencer.md R131, R132). -/
def State.commit (s : State) : State := s.commitPc.commitReg

/-! ### The mode -/

/-- Mode bit 0, PHASE_RESTRICT (R27); every other bit is ignored (R28, D17). -/
def State.phaseRestricted (s : State) : Bool := s.mode.testBit 0

/-! ### Instruction memory -/

/-- `exhausted(pc)`: the PC exceeds the ending address (R52). -/
def State.exhausted (s : State) : Bool := 4 * s.imem.length ≤ s.pc.toNat

/-- Steps 3 and 4: program end first (R134), then `IFetch(pc)`, which faults on a misaligned PC (R51, R53, R228). -/
def State.fetch (s : State) : Except Fault Word :=
  if h : s.exhausted then .error .programEnd
  else if aligned s.pc then
    .ok (s.imem[s.pc.toNat / 4]'(by simp [State.exhausted] at h; omega))
  else .error (.model (.misalignedFetch s.pc))

/-! ### Data memory -/

/-- The checks of a data access, in the order of R56 and R57: misaligned first, then out of range (R228). -/
def dataFault (p : Params) (addr : Word) : Option ModelFault :=
  if aligned addr then
    if dmemExists p addr then none else some (.dataOutOfRange addr)
  else some (.misalignedData addr)

/-- `MemRead(addr, 4)` (R56). -/
def memRead (p : Params) (m : Memory) (addr : Word) : Except ModelFault Word :=
  match dataFault p addr with
  | some f => .error f
  | none => .ok (m.readWord addr)

/-- `MemWrite(addr, 4, v)` (R57). -/
def memWrite (p : Params) (m : Memory) (addr v : Word) : Except ModelFault Memory :=
  match dataFault p addr with
  | some f => .error f
  | none => .ok (m.writeWord addr v)

/-- The data-memory port of step 10 (R35, R59, R141): what is read, if MemRead is 1, and the memory afterwards. With
both flags 0 no access is made and nothing can fault. No control row sets both; the read then comes first, as in R131 (log 17). -/
def dmemPort (p : Params) (m : Memory) (address dataIn : Word) (read write : Bool) :
    Except ModelFault (Option Word × Memory) :=
  match (if read then (memRead p m address).map some else .ok none) with
  | .error f => .error f
  | .ok dataOut =>
    match (if write then memWrite p m address dataIn else .ok m) with
    | .error f => .error f
    | .ok m' => .ok (dataOut, m')

/-! ### The cycle count and the caller -/

/-- A completed cycle is counted (R33, R144). -/
def State.countCycle (s : State) : State := { s with cycles := s.cycles + 1 }

/-- Each run counts from 0 (R148). -/
def State.startRun (s : State) : State := { s with cycles := 0 }

/-- The caller may change the mode between runs (R27, R148). -/
def State.setMode (s : State) (mode : Nat) : State := { s with mode := mode }

/-- The image with a word at an index: words missing before it are 0 (log 8). -/
def imageWith (image : List Word) (idx : Nat) (w : Word) : List Word :=
  (image ++ List.replicate (idx + 1 - image.length) 0).set idx w

end Sys2Proof.Machine
end

