-- ==== Sys2Proof/Machine/Operands.lean ====
section
/-! DEFINITION. The selector and its four uses, sign extension and the two address calculators: every way an operand or
a next PC is formed (30_encoding.md R74, R75; 40_control_units.md R100 to R104, R116 to R120). -/

namespace Sys2Proof.Machine

/-- The selector: `v0` when the bit is 0, `v1` when it is 1 (R38). -/
def mux {α : Type} (v0 v1 : α) (s : Bool) : α := if s then v1 else v0

/-- The sign-extension unit (R100). -/
def sext (imm : Imm16) : Word :=
  if imm.getLsbD 15 then 0xFFFF0000 ||| imm.setWidth 32 else imm.setWidth 32

/-- PC+4 modulo 2^32 (R133). -/
def pcPlus4 (pc : Word) : Word := pc + 4

/-- The branch address calculator (R102). -/
def branchAddr (pc4 sextImm : Word) : Word := pc4 + (sextImm <<< 2)

/-- The jump address calculator (R103). -/
def jumpAddr (pc4 instr : Word) : Word :=
  (pc4 &&& 0xF0000000) ||| ((instr &&& 0x03FFFFFF) <<< 2)

/-- The write-register multiplexer (R116). -/
def writeRegMux (rt rd : RegIdx) (regDst : Bool) : RegIdx := mux rt rd regDst

/-- The ALU operand-B multiplexer (R117). -/
def aluBMux (readData2 sextImm : Word) (aluSrc : Bool) : Word := mux readData2 sextImm aluSrc

/-- The writeback multiplexer (R118). `memData` is `none` in a cycle that reads no data memory, and so is the
selected value where MemtoReg is 1 there; no control row does that (R31, R118, log 17). -/
def writebackMux (aluResult : Word) (memData : Option Word) (memtoReg : Bool) : Option Word :=
  mux (some aluResult) memData memtoReg

/-- The PC multiplexer: Jump before PCSrc before PC+4 (R120). -/
def nextPcMux (pc4 branch jump : Word) (pcSrc jumpFlag : Bool) : Word :=
  mux (mux pc4 branch pcSrc) jump jumpFlag

end Sys2Proof.Machine
end

