-- ==== Sys2Proof/Machine/Flags.lean ====
section
/-! DEFINITION. The only flag-like values, all wires of one cycle (10_state.md R29): the ALU's zero flag and the branch
decision. There are no persistent flags. -/

namespace Sys2Proof.Machine

/-- The zero flag: the result is 0 (40_control_units.md R110). -/
def zeroFlag (result : Word) : Bool := result == 0

/-- The zero value the branch decision reads (R121). -/
def branchZero (mode : BranchZeroMode) (zero : Bool) : Bool :=
  match mode with
  | .aluZero => zero
  | .staleZero => false

/-- The AND gate of step 12 (R40, R119). -/
def pcSrc (branch branchZ : Bool) : Bool := branch && branchZ

end Sys2Proof.Machine
end

