-- ==== Sys2Proof/Machine/Alu.lean ====
section
/-! DEFINITION. The arithmetic unit (40_control_units.md R110 to R113). -/

namespace Sys2Proof.Machine

/-- The result for each operation code the ALU control ROM produces (R110); `none` for the other eleven (R111). Sums and
differences wrap (R112), and set-less-than compares signed values (R113). -/
def aluResult (a b : Word) (op : AluCode) : Option Word :=
  if op = 0 then some (a &&& b)
  else if op = 1 then some (a ||| b)
  else if op = 2 then some (a + b)
  else if op = 6 then some (a - b)
  else if op = 7 then some (if a.slt b then 1 else 0)
  else none

/-- The arithmetic unit: the result and its zero flag (R39, R110). -/
def alu (a b : Word) (op : AluCode) : Except ModelFault (Word × Bool) :=
  match aluResult a b op with
  | some r => .ok (r, zeroFlag r)
  | none => .error (.unreachableALUCode op)

end Sys2Proof.Machine
end

