-- ==== Sys2Proof/Machine/Control.lean ====
section
/-! DEFINITION. The main control ROM and the ALU control ROM (40_control_units.md R90 to R97). -/

namespace Sys2Proof.Machine

/-- The control vector (R90): eight flags and ALUOp, every one 0 until the ROM sets it (R31). -/
structure Control where
  regDst   : Bool := false
  jump     : Bool := false
  branch   : Bool := false
  memRead  : Bool := false
  memtoReg : Bool := false
  aluOp    : AluOp := 0
  memWrite : Bool := false
  aluSrc   : Bool := false
  regWrite : Bool := false
  deriving DecidableEq, Repr

/-- The main control ROM (R91, R92): it reads only the opcode (R93). -/
def mainControl (op : Opcode) : Except ControlErrorKind Control :=
  if op = 0 then .ok { regWrite := true, regDst := true, aluOp := 2 }
  else if op = 8 then .ok { aluSrc := true, regWrite := true }
  else if op = 35 then .ok { aluSrc := true, memtoReg := true, regWrite := true, memRead := true }
  else if op = 43 then .ok { aluSrc := true, memWrite := true }
  else if op = 4 then .ok { branch := true, aluOp := 1 }
  else if op = 2 then .ok { jump := true }
  else .error .unsupportedOpcode

/-- The ALU control ROM (R95, R96): under ALUOp 2 an unmatched function code is the default 0, never an error. -/
def aluControl (aluOp : AluOp) (funct : Funct) : Except ControlErrorKind AluCode :=
  if aluOp = 0 then .ok 2
  else if aluOp = 1 then .ok 6
  else if aluOp = 2 then
    if funct = 32 then .ok 2
    else if funct = 34 then .ok 6
    else if funct = 36 then .ok 0
    else if funct = 37 then .ok 1
    else if funct = 42 then .ok 7
    else .ok 0
  else .error .unsupportedALUOp

end Sys2Proof.Machine
end

