-- ==== Sys2Proof/Machine/Datapath.lean ====
section
/-! DEFINITION. One cycle of the datapath from the fetched word on: steps 2 and 5 to 12 of 41_cycle_sequencer.md R131.
The two records together are the signal context (10_state.md R30), built anew in each cycle (R31). -/

namespace Sys2Proof.Machine

/-- The wires of steps 2 to 6, driven in every cycle that passes step 6 (R30). -/
structure FrontSignals where
  pc         : Word
  pcPlus4    : Word
  instr      : Word
  fields     : Fields
  control    : Control
  sextImm    : Word
  writeReg   : RegIdx
  aluOp      : AluCode
  branchAddr : Word
  jumpAddr   : Word
  deriving DecidableEq, Repr

/-- The wires of steps 8 to 12, driven in a cycle that is not phase-restricted (R30). `memData` has a value only where
MemRead is 1, and `writeback` only where the value its multiplexer selects has one. -/
structure BackSignals where
  readData1  : Word
  readData2  : Word
  aluB       : Word
  aluResult  : Word
  zero       : Bool
  branchZero : Bool
  memData    : Option Word
  writeback  : Option Word
  pcSrc      : Bool
  nextPc     : Word
  deriving DecidableEq, Repr

/-- Steps 2, 5 and 6 (R133, R135, R136): decode the fields, run both control ROMs, the sign extension, the RegDst
multiplexer and both address calculators. -/
def frontSignals (w pc : Word) : Except ControlError FrontSignals :=
  let f := decodeFields w
  match mainControl f.opcode with
  | .error _ => .error (.unsupportedOpcode pc w f.opcode)
  | .ok ctl =>
    match aluControl ctl.aluOp f.funct with
    | .error _ => .error (.unsupportedALUOp pc w ctl.aluOp)
    | .ok code => .ok {
        pc := pc
        pcPlus4 := pcPlus4 pc
        instr := w
        fields := f
        control := ctl
        sextImm := sext f.imm
        writeReg := writeRegMux f.rt f.rd ctl.regDst
        aluOp := code
        branchAddr := branchAddr (pcPlus4 pc) (sext f.imm)
        jumpAddr := jumpAddr (pcPlus4 pc) w }

/-- Steps 8 to 12 (R139 to R143) as wires, with the data memory after step 10. -/
def backSignals (f : FrontSignals) (s : State) : Except ModelFault (BackSignals × Memory) :=
  let readData1 := s.readReg f.fields.rs
  let readData2 := s.readReg f.fields.rt
  let aluB := aluBMux readData2 f.sextImm f.control.aluSrc
  match alu readData1 aluB f.aluOp with
  | .error e => .error e
  | .ok (result, zero) =>
    match dmemPort s.params s.dmem result readData2 f.control.memRead f.control.memWrite with
    | .error e => .error e
    | .ok (memData, dmem) =>
      let branchZ := branchZero s.params.branchZero zero
      let taken := pcSrc f.control.branch branchZ
      .ok ({
        readData1 := readData1
        readData2 := readData2
        aluB := aluB
        aluResult := result
        zero := zero
        branchZero := branchZ
        memData := memData
        writeback := writebackMux result memData f.control.memtoReg
        pcSrc := taken
        nextPc := nextPcMux f.pcPlus4 f.branchAddr f.jumpAddr taken f.control.jump }, dmem)

/-- What steps 10 to 12 leave: the data memory, the register write staged where RegWrite is 1 (R142, D12), and the
staged PC write (R143). -/
def retire (f : FrontSignals) (b : BackSignals) (dmem : Memory) (s : State) : State :=
  { s with
    dmem := dmem
    pendReg :=
      match f.control.regWrite, b.writeback with
      | true, some v => some (f.writeReg, v)
      | _, _ => s.pendReg
    pendPc := some b.nextPc }

/-- The cycle from the word fetched at the committed PC on (R131): the front half, then either the phase restriction of
step 7 (R138) or steps 8 to 12. -/
def datapath (w : Word) (s : State) : Outcome :=
  match frontSignals w s.pc with
  | .error e => abort e
  | .ok f =>
    if s.phaseRestricted then .next (s.stagePc f.pcPlus4)
    else
      match backSignals f s with
      | .error e => modelStop e
      | .ok (b, dmem) => .next (retire f b dmem s)

end Sys2Proof.Machine
end

