-- ==== Sys2Proof/Machine/ControlTransfer.lean ====
section
/-! DEFINITION. Control transfer (44_control_transfer.md). -/

namespace Sys2Proof.Machine

/-- `beq`: pc <- the branch address where the branch decision is 1, else PC+4 (R200). -/
def execBeq (rs rt : RegIdx) (off : Imm16) (s : State) : Outcome :=
  datapath (encodeI 4 rs rt off) s

/-- `j`: pc <- the jump address (R201). -/
def execJ (idx : Target) (s : State) : Outcome :=
  datapath (encodeJ idx) s

end Sys2Proof.Machine
end

