-- ==== Sys2Proof/Machine/IType.lean ====
section
/-! DEFINITION. Immediate arithmetic, loads and stores (43_itype.md). -/

namespace Sys2Proof.Machine

/-- `addi`: x[rt] <- x[rs] + sext(imm) (R180). -/
def execAddi (rt rs : RegIdx) (imm : Imm16) (s : State) : Outcome :=
  datapath (encodeI 8 rs rt imm) s

/-- `lw`: x[rt] <- the data word at x[rs] + sext(imm) (R181). -/
def execLw (rt rs : RegIdx) (imm : Imm16) (s : State) : Outcome :=
  datapath (encodeI 35 rs rt imm) s

/-- `sw`: the data word at x[rs] + sext(imm) becomes x[rt], at once (R182). -/
def execSw (rt rs : RegIdx) (imm : Imm16) (s : State) : Outcome :=
  datapath (encodeI 43 rs rt imm) s

end Sys2Proof.Machine
end

