-- ==== Sys2Proof/Machine/RType.lean ====
section
/-! DEFINITION. The register-register instructions (42_rtype.md). The state an instruction runs on is the one after the
step 1 commit. -/

namespace Sys2Proof.Machine

/-- `add`: x[rd] <- x[rs] + x[rt] (R160). -/
def execAdd (rd rs rt : RegIdx) (shamt : Shamt) (s : State) : Outcome :=
  datapath (encodeR rs rt rd shamt 32) s

/-- `sub`: x[rd] <- x[rs] - x[rt] (R161). -/
def execSub (rd rs rt : RegIdx) (shamt : Shamt) (s : State) : Outcome :=
  datapath (encodeR rs rt rd shamt 34) s

/-- `and`: x[rd] <- x[rs] & x[rt] (R162). -/
def execAnd (rd rs rt : RegIdx) (shamt : Shamt) (s : State) : Outcome :=
  datapath (encodeR rs rt rd shamt 36) s

/-- `or`: x[rd] <- x[rs] | x[rt] (R163). -/
def execOr (rd rs rt : RegIdx) (shamt : Shamt) (s : State) : Outcome :=
  datapath (encodeR rs rt rd shamt 37) s

/-- `slt`: x[rd] <- 1 if x[rs] is less than x[rt] as signed values, else 0 (R164). -/
def execSlt (rd rs rt : RegIdx) (shamt : Shamt) (s : State) : Outcome :=
  datapath (encodeR rs rt rd shamt 42) s

/-- The R-type fallback: x[rd] <- x[rs] & x[rt] (R165). -/
def execRFallback (rd rs rt : RegIdx) (shamt : Shamt) (funct : Funct) (s : State) : Outcome :=
  datapath (encodeR rs rt rd shamt funct) s

end Sys2Proof.Machine
end

