-- ==== Sys2Proof/Machine/Dispatch.lean ====
section
/-! DEFINITION. The meaning of every instruction, on the state after the step 1 commit. -/

namespace Sys2Proof.Machine

def exec (i : Instr) (s : State) : Host.Outcome State Fault Refusal :=
  match i with
  | .add rd rs rt shamt => Sys2Proof.Machine.execAdd rd rs rt shamt s
  | .sub rd rs rt shamt => Sys2Proof.Machine.execSub rd rs rt shamt s
  | .and rd rs rt shamt => Sys2Proof.Machine.execAnd rd rs rt shamt s
  | .or rd rs rt shamt => Sys2Proof.Machine.execOr rd rs rt shamt s
  | .slt rd rs rt shamt => Sys2Proof.Machine.execSlt rd rs rt shamt s
  | .rFallback rd rs rt shamt funct => Sys2Proof.Machine.execRFallback rd rs rt shamt funct s
  | .addi rt rs imm => Sys2Proof.Machine.execAddi rt rs imm s
  | .lw rt rs imm => Sys2Proof.Machine.execLw rt rs imm s
  | .sw rt rs imm => Sys2Proof.Machine.execSw rt rs imm s
  | .beq rs rt off => Sys2Proof.Machine.execBeq rs rt off s
  | .j idx => Sys2Proof.Machine.execJ idx s

end Sys2Proof.Machine
end

