-- ==== Sys2Proof/Machine/Step.lean ====
section
/-! DEFINITION. One cycle (41_cycle_sequencer.md R131), and how the host places the instruction of the next cycle. -/

namespace Sys2Proof.Machine

/-- Steps 4 to 13 on the state after the step 1 commit: fetch, decode, the instruction's meaning, and the count of a
completed cycle (R144). -/
def stepCommitted (s : State) : Host.Outcome State Fault Refusal :=
  match s.fetch with
  | .error f => .fault f
  | .ok w =>
    match decode w with
    | .error _ => abort (.unsupportedOpcode s.pc w (decodeFields w).opcode)
    | .ok i =>
      match exec i s with
      | .next t => .next t.countCycle
      | .fault f => .fault f
      | .refused r => .refused r

/-- One cycle: the clock edge of step 1, then the rest. Where it answers a fault, the state it leaves is `s.commit`
(R137). -/
def step (s : State) : Host.Outcome State Fault Refusal := stepCommitted s.commit

/-- The state with an instruction word in the image where the next step fetches: at the PC its step 1 commit leaves.
This stands for the load of the image from outside the machine (log 8). On a PC that is not a multiple of 4 the step
faults as the spec says. -/
def State.withFetchWord (s : State) (nbits w : Nat) : State :=
  { s with imem := imageWith s.imem (s.nextPc.toNat / 4) (BitVec.ofNat 32 (w % 2 ^ nbits)) }

end Sys2Proof.Machine
end

