-- ==== Sys2Proof/Machine/Run.lean ====
section
/-! DEFINITION. The run contract (41_cycle_sequencer.md R130, R145 to R148) and what the caller reads after a run
(10_state.md R26, R41). A run of budget 0 need not end (R149), so the loop takes fuel: `none` says only that the fuel was
too little (log 12). -/

namespace Sys2Proof.Machine

/-- Why a run is done (R130). -/
inductive StopReason where
  /-- The cycle budget is spent, tested before a cycle starts. -/
  | budgetSpent
  /-- The PC passed the ending address in step 3. -/
  | programEnd
  deriving DecidableEq, Repr

/-- The outcome of a run (R130, D15, D16). -/
inductive RunOutcome where
  /-- The count of completed cycles and the reason (R146). -/
  | done (count : Nat) (why : StopReason)
  /-- A fatal control error, handed to the caller (R147). -/
  | fatal (e : ControlError)
  /-- A model fault (R226). -/
  | modelFault (f : ModelFault)
  /-- An instruction with no meaning in the model: raised by no arm of `exec`. -/
  | notExecuted (r : Refusal)
  deriving DecidableEq, Repr

/-- The budget test of R130, before each cycle: a budget of 0 is unbounded. -/
def budgetSpent (maxCycles : Nat) (s : State) : Bool := maxCycles != 0 && s.cycles == maxCycles

/-- The loop of R130. A cycle that does not complete leaves the state its step 1 commit left (R137). -/
def runLoop (maxCycles : Nat) : Nat → State → Option (RunOutcome × State)
  | 0, _ => none
  | fuel + 1, s =>
    if budgetSpent maxCycles s then some (.done s.cycles .budgetSpent, s)
    else
      match step s with
      | .next t => runLoop maxCycles fuel t
      | .fault .programEnd => some (.done s.cycles .programEnd, s.commit)
      | .fault (.control e) => some (.fatal e, s.commit)
      | .fault (.model f) => some (.modelFault f, s.commit)
      | .refused r => some (.notExecuted r, s.commit)

/-- `run(max_cycles)` with fuel for at most `fuel` turns of the loop: it continues from the state it is given, pending
writes included, with its own count from 0 (R148). -/
def run (maxCycles fuel : Nat) (s : State) : Option (RunOutcome × State) :=
  runLoop maxCycles fuel s.startRun

/-! ### What the caller reads after a run: committed values only (R26, D14, log 19) -/

/-- The committed PC. -/
def State.queryPc (s : State) : Word := s.pc

/-- A committed register, as its read port gives it (R22). -/
def State.queryReg (s : State) (i : RegIdx) : Word := s.readReg i

/-- The data word at an existing address. -/
def State.queryData (s : State) (addr : Word) : Option Word :=
  if dmemExists s.params addr then some (s.dmem.readWord addr) else none

end Sys2Proof.Machine
end

