-- ==== Sys2Proof/Safety.lean ====
section
/-! DEFINITION. The terms claims use: addresses of the image, the invariant of every step, and what a run without a model
fault is (60_exceptions.md R226: "A claim about a program must take 'no model fault' as a premise"). -/

namespace Sys2Proof.Machine

/-- Every pending or committed PC is a multiple of 4 (10_state.md R25). -/
def State.pcAligned (s : State) : Prop := aligned s.pc = true ∧ ∀ t, s.pendPc = some t → aligned t = true

/-- The invariant of every step: the data memory is in canonical form and the PC and its pending value are multiples
of 4. -/
def State.Inv (s : State) : Prop := s.dmem.wf ∧ s.pcAligned

/-- The closed opcode set (R2, R78). -/
def supportedOpcodes : List Opcode := [0, 2, 4, 8, 35, 43]

/-- The control vector and the ALU code of an instruction's word (40_control_units.md R91, R95). -/
def controlOf (i : Instr) : Except ControlErrorKind (Control × AluCode) :=
  match mainControl (decodeFields (encode i)).opcode with
  | .error k => .error k
  | .ok ctl =>
    match aluControl ctl.aluOp (decodeFields (encode i)).funct with
    | .error k => .error k
    | .ok code => .ok (ctl, code)

/-- The register an instruction stages a write to, outside the phase restriction (10_state.md R21). -/
def destReg : Instr → Option RegIdx
  | .add rd _ _ _ | .sub rd _ _ _ | .and rd _ _ _ | .or rd _ _ _ | .slt rd _ _ _ => some rd
  | .rFallback rd _ _ _ _ => some rd
  | .addi rt _ _ | .lw rt _ _ => some rt
  | .sw _ _ _ | .beq _ _ _ | .j _ => none

/-- The address an instruction stores a word to, outside the phase restriction: the ALU result of `sw` (R182). -/
def storeAddr (s : State) : Instr → Option Word
  | .sw _ rs imm => some (s.readReg rs + sext imm)
  | .add .. | .sub .. | .and .. | .or .. | .slt .. | .rFallback .. => none
  | .addi .. | .lw .. | .beq .. | .j .. => none

/-- The byte addresses of the word at `addr`. -/
def inWord (addr : Word) (a : Nat) : Prop := addr.toNat ≤ a ∧ a < addr.toNat + 4

/-- A fault that is one of the spec's own stops, not a model fault (R226). -/
def Fault.isHardwareStop : Fault → Bool
  | .programEnd => true
  | .control _ => true
  | .model _ => false

/-- The step does not meet a model fault. -/
def State.stepSafe (s : State) : Prop := ∀ f, step s ≠ .fault (.model f)

/-- `n` cycles from `s` complete one after the other and end in `t`. -/
def Reaches : Nat → State → State → Prop
  | 0, s, t => t = s
  | n + 1, s, t => ∃ u, step s = .next u ∧ Reaches n u t

end Sys2Proof.Machine
end

