-- ==== Sys2Proof/Certificates/Slice0/Obligations.lean ====
section
/-! DEFINITION. The statements for the provers. Each holds for every value of the open parameters of 00_scope.md R6, which
stand in the state (log 1). `exec i s` is the instruction's own cycle on the state after the step 1 commit (log 11). -/

open Sys2Proof Sys2Proof.Machine

/-! ### Encoding -/

/-- R70: the six fields are the bits the field decoder names. -/
def Obligations.FieldDecoderTakesTheNamedBits : Prop :=
  ∀ w : Word,
    (decodeFields w).opcode.toNat = w.toNat / 2 ^ 26 ∧
    (decodeFields w).rs.toNat = w.toNat / 2 ^ 21 % 2 ^ 5 ∧
    (decodeFields w).rt.toNat = w.toNat / 2 ^ 16 % 2 ^ 5 ∧
    (decodeFields w).rd.toNat = w.toNat / 2 ^ 11 % 2 ^ 5 ∧
    (decodeFields w).funct.toNat = w.toNat % 2 ^ 6 ∧
    (decodeFields w).imm.toNat = w.toNat % 2 ^ 16

/-- Decoding the word of a well-formed instruction gives the instruction back, at every operand value. -/
def Obligations.DecodeEncodeRoundTrip : Prop :=
  ∀ i : Instr, i.wf = true → decode (encode i) = .ok i

/-- Every word that decodes is the word of the well-formed instruction it decodes to: no bit is dropped. -/
def Obligations.EncodeDecodeRoundTrip : Prop :=
  ∀ (w : Word) (i : Instr), decode w = .ok i → i.wf = true ∧ encode i = w

/-- Every row of opcode_table.json by its match and mask: a word that matches decodes to the row's instruction with the
operands of R70 and R72. The fallback row is last, for opcode 0 with a function code that names no operation (R77). -/
def Obligations.TableRowsDecodeToTheirInstruction : Prop :=
  ∀ w : Word,
    let f := decodeFields w
    (w &&& 0xFC00003F = 0x00000020 → decode w = .ok (.add f.rd f.rs f.rt (shamtOf w))) ∧
    (w &&& 0xFC00003F = 0x00000022 → decode w = .ok (.sub f.rd f.rs f.rt (shamtOf w))) ∧
    (w &&& 0xFC00003F = 0x00000024 → decode w = .ok (.and f.rd f.rs f.rt (shamtOf w))) ∧
    (w &&& 0xFC00003F = 0x00000025 → decode w = .ok (.or f.rd f.rs f.rt (shamtOf w))) ∧
    (w &&& 0xFC00003F = 0x0000002A → decode w = .ok (.slt f.rd f.rs f.rt (shamtOf w))) ∧
    (w &&& 0xFC000000 = 0x20000000 → decode w = .ok (.addi f.rt f.rs f.imm)) ∧
    (w &&& 0xFC000000 = 0x8C000000 → decode w = .ok (.lw f.rt f.rs f.imm)) ∧
    (w &&& 0xFC000000 = 0xAC000000 → decode w = .ok (.sw f.rt f.rs f.imm)) ∧
    (w &&& 0xFC000000 = 0x10000000 → decode w = .ok (.beq f.rs f.rt f.imm)) ∧
    (w &&& 0xFC000000 = 0x08000000 → decode w = .ok (.j (targetOf w))) ∧
    (w &&& 0xFC000000 = 0x00000000 → f.funct ∉ namedFuncts →
      decode w = .ok (.rFallback f.rd f.rs f.rt (shamtOf w) f.funct))

/-- Words of 95_test_vectors.md decode to the instructions it writes beside them. -/
def Obligations.SampleWordsDecode : Prop :=
  decode 0x00221820 = .ok (.add 3 1 2 0) ∧
  decode 0x00222822 = .ok (.sub 5 1 2 0) ∧
  decode 0x00623824 = .ok (.and 7 3 2 0) ∧
  decode 0x00624025 = .ok (.or 8 3 2 0) ∧
  decode 0x0022302A = .ok (.slt 6 1 2 0) ∧
  decode 0x00221821 = .ok (.rFallback 3 1 2 0 33) ∧
  decode 0x2024FFFF = .ok (.addi 4 1 0xFFFF) ∧
  decode 0x8C250008 = .ok (.lw 5 1 8) ∧
  decode 0xAC220008 = .ok (.sw 2 1 8) ∧
  decode 0x10220003 = .ok (.beq 1 2 3) ∧
  decode 0x08000010 = .ok (.j 16) ∧
  decode 0xFC000000 = .error .unsupportedOpcode

/-- R72, R79: bits 10 to 6 of an R-format word never change what it does. -/
def Obligations.UndecodedBitsChangeNothing : Prop :=
  ∀ (rd rs rt : RegIdx) (sh sh' : Shamt) (funct : Funct) (s : State),
    exec (.add rd rs rt sh) s = exec (.add rd rs rt sh') s ∧
    exec (.sub rd rs rt sh) s = exec (.sub rd rs rt sh') s ∧
    exec (.and rd rs rt sh) s = exec (.and rd rs rt sh') s ∧
    exec (.or rd rs rt sh) s = exec (.or rd rs rt sh') s ∧
    exec (.slt rd rs rt sh) s = exec (.slt rd rs rt sh') s ∧
    exec (.rFallback rd rs rt sh funct) s = exec (.rFallback rd rs rt sh' funct) s

/-! ### Control units, extension, addresses, arithmetic -/

/-- R90, R91, R92: the main control ROM, every output of every row, and failure on every other opcode. -/
def Obligations.MainControlRom : Prop :=
  ∀ op : Opcode, mainControl op =
    match op.toNat with
    | 0 => .ok ⟨true, false, false, false, false, 2, false, false, true⟩
    | 8 => .ok ⟨false, false, false, false, false, 0, false, true, true⟩
    | 35 => .ok ⟨false, false, false, true, true, 0, false, true, true⟩
    | 43 => .ok ⟨false, false, false, false, false, 0, true, true, false⟩
    | 4 => .ok ⟨false, false, true, false, false, 1, false, false, false⟩
    | 2 => .ok ⟨false, true, false, false, false, 0, false, false, false⟩
    | _ => .error .unsupportedOpcode

/-- R95, R96: the ALU control ROM with its explicit default, and failure on ALUOp 3. -/
def Obligations.AluControlRom : Prop :=
  ∀ (op : AluOp) (funct : Funct), aluControl op funct =
    match op.toNat, funct.toNat with
    | 0, _ => .ok 2
    | 1, _ => .ok 6
    | 2, 32 => .ok 2
    | 2, 34 => .ok 6
    | 2, 36 => .ok 0
    | 2, 37 => .ok 1
    | 2, 42 => .ok 7
    | 2, _ => .ok 0
    | _, _ => .error .unsupportedALUOp

/-- R97, R111: no row of the main control ROM gives ALUOp 3, and no cycle of any state raises UnsupportedALUOp or
reaches the arithmetic unit with another operation code than 0, 1, 2, 6 and 7. -/
def Obligations.UnreachableControlErrorsNeverHappen : Prop :=
  (∀ (op : Opcode) (ctl : Control), mainControl op = .ok ctl → ctl.aluOp ≠ 3) ∧
  (∀ (s : State) (pc instr : Word) (op : AluOp), step s ≠ .fault (.control (.unsupportedALUOp pc instr op))) ∧
  (∀ (s : State) (code : AluCode), step s ≠ .fault (.model (.unreachableALUCode code)))

/-- R100: as a signed value, the extension is the immediate, less 0x10000 where bit 15 is set; as a pattern, bit 15 is
copied into bits 31 to 16. -/
def Obligations.SignExtension : Prop :=
  ∀ imm : Imm16,
    (sext imm).toInt = (if imm.getLsbD 15 then (imm.toNat : Int) - 0x10000 else (imm.toNat : Int)) ∧
    (sext imm).extractLsb' 0 16 = imm ∧
    ∀ k, 16 ≤ k → k < 32 → (sext imm).getLsbD k = imm.getLsbD 15

/-- R102: the branch address is (PC+4) + 4 times the signed immediate, modulo 2^32, and keeps the PC's low two bits. -/
def Obligations.BranchAddress : Prop :=
  ∀ (pc : Word) (imm : Imm16),
    branchAddr (pcPlus4 pc) (sext imm) = BitVec.ofInt 32 (((pc + 4).toNat : Int) + 4 * (sext imm).toInt) ∧
    (branchAddr (pcPlus4 pc) (sext imm)).toNat % 4 = pc.toNat % 4

/-- R103: the jump address keeps the top four bits of PC+4, takes the 26-bit target below them, and ends in two zeros. -/
def Obligations.JumpAddress : Prop :=
  ∀ pc instr : Word,
    jumpAddr (pcPlus4 pc) instr = ((pc + 4) &&& 0xF0000000) ||| (4 * (instr &&& 0x03FFFFFF)) ∧
    jumpAddr (pcPlus4 pc) instr = (pc + 4).extractLsb' 28 4 ++ targetOf instr ++ 0#2

/-- R110, R112, R113: the arithmetic unit. AND and OR bit by bit, sums and differences modulo 2^32 with no error, the
signed comparison, the zero flag, and the model fault on every other code. -/
def Obligations.ArithmeticUnit : Prop :=
  ∀ a b : Word,
    (∃ r, alu a b 0 = .ok (r, r == 0) ∧ ∀ k, r.getLsbD k = (a.getLsbD k && b.getLsbD k)) ∧
    (∃ r, alu a b 1 = .ok (r, r == 0) ∧ ∀ k, r.getLsbD k = (a.getLsbD k || b.getLsbD k)) ∧
    (∃ r, alu a b 2 = .ok (r, r == 0) ∧ r.toNat = (a.toNat + b.toNat) % 2 ^ 32) ∧
    (∃ r, alu a b 6 = .ok (r, r == 0) ∧ (r.toNat : Int) = ((a.toNat : Int) - b.toNat) % 2 ^ 32) ∧
    (∃ r, alu a b 7 = .ok (r, r == 0) ∧ r = if a.toInt < b.toInt then 1 else 0) ∧
    (∀ code : AluCode, code ∉ [0, 1, 2, 6, 7] → alu a b code = .error (.unreachableALUCode code))

/-- R38, R40, R116 to R121: the selector and its uses, the AND gate, and the zero value the branch decision reads. -/
def Obligations.MultiplexersAndBranchDecision : Prop :=
  (∀ (v0 v1 : Word), mux v0 v1 false = v0 ∧ mux v0 v1 true = v1) ∧
  (∀ (rt rd : RegIdx), writeRegMux rt rd false = rt ∧ writeRegMux rt rd true = rd) ∧
  (∀ (readData2 sextImm : Word), aluBMux readData2 sextImm false = readData2 ∧ aluBMux readData2 sextImm true = sextImm) ∧
  (∀ (result data : Word) (d : Option Word),
    writebackMux result d false = some result ∧ writebackMux result (some data) true = some data) ∧
  (∀ (pc4 branch jump : Word) (pcs : Bool),
    nextPcMux pc4 branch jump pcs true = jump ∧ nextPcMux pc4 branch jump true false = branch ∧
    nextPcMux pc4 branch jump false false = pc4) ∧
  (∀ b z : Bool, pcSrc b z = true ↔ b = true ∧ z = true) ∧
  (∀ z : Bool, branchZero .aluZero z = z ∧ branchZero .staleZero z = false)

/-! ### Registers and the clock edge -/

/-- R22: a read port gives the committed value, or 0 for a hardwired register 0; it does not see a pending write; and the
read after the next commit does, but for a hardwired register 0. -/
def Obligations.RegisterReadPort : Prop :=
  ∀ (s : State) (i : RegIdx),
    (s.params.r0Hardwired = true → i = 0 → s.readReg i = 0) ∧
    (¬ (s.params.r0Hardwired = true ∧ i = 0) → s.readReg i = s.regs[i.toNat]'i.isLt) ∧
    (∀ (j : RegIdx) (v : Word), (s.stageReg j v).readReg i = s.readReg i) ∧
    (∀ v : Word, (s.stageReg i v).commit.readReg i = if s.params.r0Hardwired && i == 0 then 0 else v) ∧
    (∀ (j : RegIdx) (v : Word), j ≠ i → (s.stageReg j v).commit.readReg i = s.readReg i)

/-- R25, R132: the commit moves the pending PC and the pending register write in, and nothing stays pending; where
nothing was pending it changes nothing. -/
def Obligations.CommitIsTheClockEdge : Prop :=
  ∀ s : State,
    s.commit.pendPc = none ∧ s.commit.pendReg = none ∧
    (∀ target, s.pendPc = some target → s.commit.pc = target) ∧
    (s.pendPc = none → s.commit.pc = s.pc) ∧
    (∀ i v, s.pendReg = some (i, v) → s.params.r0Hardwired = true → i = 0 → s.commit.regs = s.regs) ∧
    (∀ i v, s.pendReg = some (i, v) → ¬ (s.params.r0Hardwired = true ∧ i = 0) →
      s.commit.regs = s.regs.set i.toNat v i.isLt) ∧
    (s.pendReg = none → s.commit.regs = s.regs) ∧
    s.commit.imem = s.imem ∧ s.commit.dmem = s.dmem ∧ s.commit.mode = s.mode ∧ s.commit.cycles = s.cycles ∧
    s.commit.params = s.params

/-- R244: an instruction only stages. It changes no committed register and not the committed PC, and what is pending
while it runs changes neither whether it completes nor what it stores, nor the PC it stages, nor the register write of an
instruction that stages one. -/
def Obligations.StagedWritesAreNotObservedInTheirCycle : Prop :=
  ∀ (i : Instr) (s t : State), exec i s = .next t →
    t.regs = s.regs ∧ t.pc = s.pc ∧
    ∀ (pr : Option (RegIdx × Word)) (pp : Option Word),
      ∃ u, exec i { s with pendReg := pr, pendPc := pp } = .next u ∧ u.regs = s.regs ∧ u.dmem = t.dmem ∧
        u.pendPc = t.pendPc ∧ (u.pendReg = t.pendReg ∨ (t.pendReg = s.pendReg ∧ u.pendReg = pr))

/-- R25: every cycle that completes stages a PC write, PC+4 in phase-restricted mode and otherwise PC+4, the branch
address of a `beq` or the jump address of a `j`. -/
def Obligations.EveryCompletedCycleStagesThePc : Prop :=
  ∀ (i : Instr) (s t : State), exec i s = .next t →
    (s.phaseRestricted = true → t.pendPc = some (s.pc + 4)) ∧
    (s.phaseRestricted = false →
      t.pendPc = some (s.pc + 4) ∨
      (∃ rs rt off, i = .beq rs rt off ∧ t.pendPc = some (branchAddr (s.pc + 4) (sext off))) ∨
      (∃ idx, i = .j idx ∧ t.pendPc = some (jumpAddr (s.pc + 4) (encode i))))

/-! ### The instructions: encoding, control row, and the next state, outside the phase restriction -/

/-- R160. -/
def Obligations.AddStagesTheSum : Prop :=
  ∀ (rd rs rt : RegIdx) (sh : Shamt) (s : State),
    encode (.add rd rs rt sh) &&& 0xFC00003F = 0x00000020 ∧
    controlOf (.add rd rs rt sh) = .ok ({ regDst := true, aluOp := 2, regWrite := true }, 2) ∧
    (s.phaseRestricted = false → exec (.add rd rs rt sh) s =
      .next { s with pendReg := some (rd, s.readReg rs + s.readReg rt), pendPc := some (s.pc + 4) })

/-- R161. -/
def Obligations.SubStagesTheDifference : Prop :=
  ∀ (rd rs rt : RegIdx) (sh : Shamt) (s : State),
    encode (.sub rd rs rt sh) &&& 0xFC00003F = 0x00000022 ∧
    controlOf (.sub rd rs rt sh) = .ok ({ regDst := true, aluOp := 2, regWrite := true }, 6) ∧
    (s.phaseRestricted = false → exec (.sub rd rs rt sh) s =
      .next { s with pendReg := some (rd, s.readReg rs - s.readReg rt), pendPc := some (s.pc + 4) })

/-- R162. -/
def Obligations.AndStagesTheConjunction : Prop :=
  ∀ (rd rs rt : RegIdx) (sh : Shamt) (s : State),
    encode (.and rd rs rt sh) &&& 0xFC00003F = 0x00000024 ∧
    controlOf (.and rd rs rt sh) = .ok ({ regDst := true, aluOp := 2, regWrite := true }, 0) ∧
    (s.phaseRestricted = false → exec (.and rd rs rt sh) s =
      .next { s with pendReg := some (rd, s.readReg rs &&& s.readReg rt), pendPc := some (s.pc + 4) })

/-- R163. -/
def Obligations.OrStagesTheDisjunction : Prop :=
  ∀ (rd rs rt : RegIdx) (sh : Shamt) (s : State),
    encode (.or rd rs rt sh) &&& 0xFC00003F = 0x00000025 ∧
    controlOf (.or rd rs rt sh) = .ok ({ regDst := true, aluOp := 2, regWrite := true }, 1) ∧
    (s.phaseRestricted = false → exec (.or rd rs rt sh) s =
      .next { s with pendReg := some (rd, s.readReg rs ||| s.readReg rt), pendPc := some (s.pc + 4) })

/-- R164. -/
def Obligations.SltStagesTheSignedComparison : Prop :=
  ∀ (rd rs rt : RegIdx) (sh : Shamt) (s : State),
    encode (.slt rd rs rt sh) &&& 0xFC00003F = 0x0000002A ∧
    controlOf (.slt rd rs rt sh) = .ok ({ regDst := true, aluOp := 2, regWrite := true }, 7) ∧
    (s.phaseRestricted = false → exec (.slt rd rs rt sh) s =
      .next { s with
        pendReg := some (rd, if (s.readReg rs).toInt < (s.readReg rt).toInt then 1 else 0)
        pendPc := some (s.pc + 4) })

/-- R165: every function code under opcode 0 that names no operation. -/
def Obligations.RFallbackStagesTheConjunction : Prop :=
  ∀ (rd rs rt : RegIdx) (sh : Shamt) (funct : Funct) (s : State), (Instr.rFallback rd rs rt sh funct).wf = true →
    encode (.rFallback rd rs rt sh funct) &&& 0xFC000000 = 0x00000000 ∧
    controlOf (.rFallback rd rs rt sh funct) = .ok ({ regDst := true, aluOp := 2, regWrite := true }, 0) ∧
    (s.phaseRestricted = false → exec (.rFallback rd rs rt sh funct) s =
      .next { s with pendReg := some (rd, s.readReg rs &&& s.readReg rt), pendPc := some (s.pc + 4) })

/-- R180. -/
def Obligations.AddiStagesTheSum : Prop :=
  ∀ (rt rs : RegIdx) (imm : Imm16) (s : State),
    encode (.addi rt rs imm) &&& 0xFC000000 = 0x20000000 ∧
    controlOf (.addi rt rs imm) = .ok ({ aluSrc := true, regWrite := true }, 2) ∧
    (s.phaseRestricted = false → exec (.addi rt rs imm) s =
      .next { s with pendReg := some (rt, s.readReg rs + sext imm), pendPc := some (s.pc + 4) })

/-- R181: the word at an address that exists, and the two model faults, misaligned first. -/
def Obligations.LwStagesTheLoadedWord : Prop :=
  ∀ (rt rs : RegIdx) (imm : Imm16) (s : State),
    encode (.lw rt rs imm) &&& 0xFC000000 = 0x8C000000 ∧
    controlOf (.lw rt rs imm) = .ok ({ memRead := true, memtoReg := true, aluSrc := true, regWrite := true }, 2) ∧
    (s.phaseRestricted = false →
      let addr := s.readReg rs + sext imm
      (addr.toNat % 4 ≠ 0 → exec (.lw rt rs imm) s = .fault (.model (.misalignedData addr))) ∧
      (addr.toNat % 4 = 0 → dmemExists s.params addr = false →
        exec (.lw rt rs imm) s = .fault (.model (.dataOutOfRange addr))) ∧
      (dmemExists s.params addr = true → exec (.lw rt rs imm) s =
        .next { s with pendReg := some (rt, s.dmem.readWord addr), pendPc := some (s.pc + 4) }))

/-- R182: the store at an address that exists, and the two model faults, misaligned first. -/
def Obligations.SwStoresTheWord : Prop :=
  ∀ (rt rs : RegIdx) (imm : Imm16) (s : State),
    encode (.sw rt rs imm) &&& 0xFC000000 = 0xAC000000 ∧
    controlOf (.sw rt rs imm) = .ok ({ memWrite := true, aluSrc := true }, 2) ∧
    (s.phaseRestricted = false →
      let addr := s.readReg rs + sext imm
      (addr.toNat % 4 ≠ 0 → exec (.sw rt rs imm) s = .fault (.model (.misalignedData addr))) ∧
      (addr.toNat % 4 = 0 → dmemExists s.params addr = false →
        exec (.sw rt rs imm) s = .fault (.model (.dataOutOfRange addr))) ∧
      (dmemExists s.params addr = true → exec (.sw rt rs imm) s =
        .next { s with dmem := s.dmem.writeWord addr (s.readReg rt), pendPc := some (s.pc + 4) }))

/-- R200, R121: taken exactly when the registers are equal under ALU_ZERO, never under STALE_ZERO. -/
def Obligations.BeqStagesTheSelectedPc : Prop :=
  ∀ (rs rt : RegIdx) (off : Imm16) (s : State),
    encode (.beq rs rt off) &&& 0xFC000000 = 0x10000000 ∧
    controlOf (.beq rs rt off) = .ok ({ branch := true, aluOp := 1 }, 6) ∧
    (s.phaseRestricted = false → exec (.beq rs rt off) s =
      .next { s with
        pendPc := some (
          if s.params.branchZero = .aluZero ∧ s.readReg rs = s.readReg rt then s.pc + 4 + (sext off <<< 2)
          else s.pc + 4) })

/-- R201. -/
def Obligations.JStagesTheJumpAddress : Prop :=
  ∀ (idx : Target) (s : State),
    encode (.j idx) &&& 0xFC000000 = 0x08000000 ∧
    controlOf (.j idx) = .ok ({ jump := true }, 2) ∧
    (s.phaseRestricted = false → exec (.j idx) s =
      .next { s with pendPc := some ((s.pc + 4).extractLsb' 28 4 ++ idx ++ 0#2) })

/-- R138, R167, R184, R203: in phase-restricted mode every instruction stages PC+4 and does nothing else. -/
def Obligations.PhaseRestrictedCycleOnlyAdvances : Prop :=
  ∀ (i : Instr) (s : State), s.phaseRestricted = true →
    exec i s = .next { s with pendPc := some (s.pc + 4) }

/-! ### Frames over all instructions -/

/-- R21, R23: an instruction with a destination register stages a write to that register and to no other; one without,
and every instruction in a phase-restricted cycle, stages no register write. -/
def Obligations.RegisterWritesGoToTheDestination : Prop :=
  ∀ (i : Instr) (s t : State), exec i s = .next t →
    (s.phaseRestricted = true → t.pendReg = s.pendReg) ∧
    (s.phaseRestricted = false →
      (∀ r, destReg i = some r → ∃ v, t.pendReg = some (r, v)) ∧
      (destReg i = none → t.pendReg = s.pendReg))

/-- R57, R59: the frame of data memory. From a memory in canonical form, every byte outside the word an instruction
stores to reads as before, and every byte where it stores nothing; the stored word reads as x[rt]; and image, mode, count
and parameters are unchanged by every instruction. -/
def Obligations.DataMemoryFrame : Prop :=
  ∀ (i : Instr) (s t : State), s.dmem.wf → exec i s = .next t →
    (t.imem = s.imem ∧ t.mode = s.mode ∧ t.cycles = s.cycles ∧ t.params = s.params) ∧
    (s.phaseRestricted = true → ∀ a, t.dmem.readByte a = s.dmem.readByte a) ∧
    (storeAddr s i = none → ∀ a, t.dmem.readByte a = s.dmem.readByte a) ∧
    (∀ addr, storeAddr s i = some addr → ∀ a, ¬ inWord addr a → t.dmem.readByte a = s.dmem.readByte a) ∧
    (∀ rt rs imm addr, i = .sw rt rs imm → storeAddr s i = some addr → s.phaseRestricted = false →
      t.dmem.readWord addr = s.readReg rt)

/-- R55, R56, R57: data memory is a map from the existing aligned addresses to words, whichever order the model holds
their bytes in; every other access is the model fault the rules name. -/
def Obligations.DataMemoryIsAMapOfWords : Prop :=
  ∀ (p : Params) (m : Memory) (a : Word) (v : Word), m.wf →
    (a.toNat % 4 ≠ 0 →
      memRead p m a = .error (.misalignedData a) ∧ memWrite p m a v = .error (.misalignedData a)) ∧
    (a.toNat % 4 = 0 → dmemExists p a = false →
      memRead p m a = .error (.dataOutOfRange a) ∧ memWrite p m a v = .error (.dataOutOfRange a)) ∧
    (dmemExists p a = true →
      memRead p m a = .ok (m.readWord a) ∧
      ∃ m', memWrite p m a v = .ok m' ∧ m'.wf ∧
        ∀ b, dmemExists p b = true → memRead p m' b = if b = a then .ok v else memRead p m b)

/-- R182's round trip: a store and then a load of the same address in the next cycle gives the register the value stored.
Stated from a committed state, where nothing is pending. -/
def Obligations.StoreThenLoadGivesTheStoredWord : Prop :=
  ∀ (rt rs rt' : RegIdx) (imm : Imm16) (s : State), s.dmem.wf → s.pendReg = none → s.phaseRestricted = false →
    dmemExists s.params (s.readReg rs + sext imm) = true →
    ∃ t u, exec (.sw rt rs imm) s = .next t ∧ exec (.lw rt' rs imm) t.commit = .next u ∧
      u.commit.readReg rt' = (if s.params.r0Hardwired && rt' == 0 then 0 else s.readReg rt)

/-! ### The cycle -/

/-- A step runs the decoded instruction: where the word at the PC that step 1 commits decodes to `i`, the step is `i`'s
meaning on the committed state, and a completed cycle is counted. -/
def Obligations.StepRunsTheDecodedInstruction : Prop :=
  ∀ (s : State) (w : Word) (i : Instr),
    s.nextPc.toNat % 4 = 0 → s.imem[s.nextPc.toNat / 4]? = some w → decode w = .ok i →
    step s =
      match exec i s.commit with
      | .next t => .next { t with cycles := t.cycles + 1 }
      | .fault f => .fault f
      | .refused r => .refused r

/-- R131: one step is the spec's cycle: the commit, program end, the fetch, and the datapath on the word fetched, decode
errors included. -/
def Obligations.StepIsTheDatapathCycle : Prop :=
  ∀ s : State, step s =
    match s.commit.fetch with
    | .error f => .fault f
    | .ok w =>
      match datapath w s.commit with
      | .next t => .next t.countCycle
      | .fault f => .fault f
      | .refused r => .refused r

/-- R228, R134, R53: the order of the stops: program end before a misaligned fetch, and that before any decode. -/
def Obligations.StopsComeInTheSpecsOrder : Prop :=
  ∀ s : State,
    (4 * s.imem.length ≤ s.nextPc.toNat → step s = .fault .programEnd) ∧
    (s.nextPc.toNat < 4 * s.imem.length → s.nextPc.toNat % 4 ≠ 0 →
      step s = .fault (.model (.misalignedFetch s.nextPc))) ∧
    (∀ w, s.nextPc.toNat % 4 = 0 → s.imem[s.nextPc.toNat / 4]? = some w →
      step s ≠ .fault .programEnd ∧ ∀ pc, step s ≠ .fault (.model (.misalignedFetch pc)))

/-- R78, R220: a fetched word whose opcode is outside the closed set raises UnsupportedOpcode with the PC, the word and
the opcode, in either mode; a word whose opcode is in the set raises no control error. -/
def Obligations.UnsupportedOpcodeIsRaisedExactlyOutsideTheSet : Prop :=
  ∀ (s : State) (w : Word), s.nextPc.toNat % 4 = 0 → s.imem[s.nextPc.toNat / 4]? = some w →
    ((decodeFields w).opcode ∉ supportedOpcodes →
      step s = .fault (.control (.unsupportedOpcode s.nextPc w (decodeFields w).opcode))) ∧
    ((decodeFields w).opcode ∈ supportedOpcodes → ∀ e, step s ≠ .fault (.control e))

/-- No step of any state is refused: every instruction has its meaning. -/
def Obligations.NoStepIsRefused : Prop :=
  ∀ (s : State) (r : Refusal), step s ≠ .refused r

/-- No step changes the image (R54) or the mode (R27), and a step that completes counts one cycle (R33, R144). That no step
changes the parameters either is the model's own representation of 00_scope.md R6 (log 1). -/
def Obligations.StepKeepsImageModeAndParameters : Prop :=
  ∀ s t : State, step s = .next t →
    t.imem = s.imem ∧ t.mode = s.mode ∧ t.params = s.params ∧ t.cycles = s.cycles + 1

/-- A step changes no byte of data memory that lies in no word of DMEM_VALID. -/
def Obligations.StepStoresOnlyWhereDataExists : Prop :=
  ∀ s t : State, s.dmem.wf → step s = .next t →
    ∀ a, (∀ addr, dmemExists s.params addr = true → ¬ inWord addr a) → t.dmem.readByte a = s.dmem.readByte a

/-- Mode bits other than bit 0 change nothing: two states that differ only there step alike. For bits 1 to 3 this is R28; for
bits 4 and up it is R27's decision D17, which the model follows (log 18). -/
def Obligations.OnlyModeBitZeroMatters : Prop :=
  ∀ (s : State) (mode : Nat), mode.testBit 0 = s.mode.testBit 0 →
    step (s.setMode mode) =
      match step s with
      | .next t => .next (t.setMode mode)
      | .fault f => .fault f
      | .refused r => .refused r

/-! ### Invariants -/

/-- Every step keeps the data memory in canonical form and the PC and its pending value multiples of 4. -/
def Obligations.StepKeepsInv : Prop :=
  ∀ s t : State, s.Inv → step s = .next t → t.Inv

/-- The invariant at simulation start, for every image, register contents, mode and parameters, from an aligned entry and
an initial memory in canonical form. -/
def Obligations.StartHasInv : Prop :=
  (∀ (image : List Word) (entry : Word) (regs : Vector Word 32) (dmem : Memory) (mode : Nat) (p : Params),
    entry.toNat % 4 = 0 → dmem.wf → (State.start image entry regs dmem mode p).Inv) ∧
  State.reset.Inv

/-- R240: the state at simulation start; and its first commit changes nothing, as it would be from a start that holds the
entry as the pending PC. -/
def Obligations.SimulationStart : Prop :=
  ∀ (image : List Word) (entry : Word) (regs : Vector Word 32) (dmem : Memory) (mode : Nat) (p : Params),
    let s := State.start image entry regs dmem mode p
    s.pc = entry ∧ s.pendPc = none ∧ s.regs = regs ∧ s.pendReg = none ∧ s.imem = image ∧ s.dmem = dmem ∧
    s.mode = mode ∧ s.cycles = 0 ∧ s.commit = s ∧ (∀ pc', ({ s with pc := pc', pendPc := some entry }).commit = s)

/-! ### Runs -/

/-- R150: in phase-restricted mode, any number of cycles leaves data memory as it was and the register file as the first
commit left it, whatever the instructions, and the PC advances by 4 a cycle. -/
def Obligations.PhaseRestrictedRunsNeverMutate : Prop :=
  ∀ (n : Nat) (s t : State), s.phaseRestricted = true → Reaches (n + 1) s t →
    t.dmem = s.dmem ∧ t.regs = s.committedRegs ∧ t.pendReg = none ∧
    t.nextPc = s.nextPc + BitVec.ofNat 32 (4 * (n + 1)) ∧ t.cycles = s.cycles + (n + 1)

/-- R150: a phase-restricted run of a k-word image, from an aligned PC e in the image, completes (4k - e)/4 cycles and ends
at program end, when every word on the way has a supported opcode. The image has fewer than 2^30 words, so that the PC can
pass its end (log 16). -/
def Obligations.PhaseRestrictedRunEndsAtProgramEnd : Prop :=
  ∀ s : State, s.phaseRestricted = true → s.nextPc.toNat % 4 = 0 → s.imem.length < 2 ^ 30 →
    s.nextPc.toNat ≤ 4 * s.imem.length →
    (∀ (j : Nat) (w : Word), s.nextPc.toNat / 4 ≤ j → s.imem[j]? = some w → (decodeFields w).opcode ∈ supportedOpcodes) →
    ∃ fuel t, run 0 fuel s = some (.done ((4 * s.imem.length - s.nextPc.toNat) / 4) .programEnd, t) ∧
      t.pc.toNat = 4 * s.imem.length ∧ t.dmem = s.dmem ∧ t.regs = s.committedRegs ∧ t.pendReg = none

/-- R146: `run(0)` on an image of k words of register instructions (opcodes 0 and 8), from address 0 outside the phase
restriction, completes exactly k cycles and then stops at program end with the PC past the image. The image has fewer than
2^30 words, so that the PC can pass its end (log 16). -/
def Obligations.StraightLineRunCompletesOneCyclePerWord : Prop :=
  ∀ s : State, s.phaseRestricted = false → s.nextPc = 0 → s.imem.length < 2 ^ 30 →
    (∀ w ∈ s.imem, (decodeFields w).opcode = 0 ∨ (decodeFields w).opcode = 8) →
    ∃ fuel t, run 0 fuel s = some (.done s.imem.length .programEnd, t) ∧
      t.pc.toNat = 4 * s.imem.length ∧ t.dmem = s.dmem ∧ t.imem = s.imem

/-- R130, R146: a run with a budget ends within it, by the fuel of one turn more than the budget; a count it returns is at
most the budget, and the budget itself where the budget is the reason. -/
def Obligations.BudgetedRunEnds : Prop :=
  ∀ (maxCycles : Nat) (s : State), maxCycles ≠ 0 →
    ∃ o t, run maxCycles (maxCycles + 1) s = some (o, t) ∧
      ∀ count why, o = .done count why → count ≤ maxCycles ∧ count = t.cycles ∧ (why = .budgetSpent → count = maxCycles)

/-- R151: a run has at most one outcome, whatever the fuel. -/
def Obligations.RunHasOneOutcome : Prop :=
  ∀ (maxCycles fuel fuel' : Nat) (s : State) (r r' : RunOutcome × State),
    run maxCycles fuel s = some r → run maxCycles fuel' s = some r' → r = r'

/-- R137, R147: a run that stops at its first cycle hands the caller the reason and leaves exactly what that cycle's commit
left; a run on the state a fatal error left raises the same error again (R148). -/
def Obligations.StoppedRunLeavesTheCommit : Prop :=
  ∀ (maxCycles fuel : Nat) (s : State),
    (step s = .fault .programEnd →
      run maxCycles (fuel + 1) s = some (.done 0 .programEnd, s.commit.startRun)) ∧
    (∀ f, step s = .fault (.model f) → run maxCycles (fuel + 1) s = some (.modelFault f, s.commit.startRun)) ∧
    (∀ e, step s = .fault (.control e) →
      run maxCycles (fuel + 1) s = some (.fatal e, s.commit.startRun) ∧
      run maxCycles (fuel + 1) s.commit.startRun = some (.fatal e, s.commit.startRun))

/-- R148, R26: runs resume. A run of budget m that spends it and then a run of budget n end in the state a single run of
budget m + n ends in, for the same reason, the counts adding up. -/
def Obligations.BudgetedRunsResume : Prop :=
  ∀ (m n : Nat) (s t u : State) (o : RunOutcome), m ≠ 0 → n ≠ 0 →
    run m (m + 1) s = some (.done m .budgetSpent, t) → run n (n + 1) t = some (o, u) →
    run (m + n) (m + n + 1) s =
      some (
        (match o with
          | .done count why => .done (m + count) why
          | .fatal e => .fatal e
          | .modelFault f => .modelFault f
          | .notExecuted r => .notExecuted r),
        { u with cycles := m + u.cycles })
end

