-- ==== Sys2Proof/Laws/Decode.lean ====
section
/-! SUPPORT. The fields of an encoded word, and a word as the concatenation of its fields. -/

namespace Sys2Proof

theorem extract_append_high {n m : Nat} (x : BitVec n) (y : BitVec m) (k len : Nat) (h : m ≤ k) :
    (x ++ y).extractLsb' k len = x.extractLsb' (k - m) len := by
  apply BitVec.eq_of_getLsbD_eq
  intro i hi
  simp only [BitVec.getLsbD_extractLsb', BitVec.getLsbD_append, show ¬ k + i < m by omega]
  simp [show k + i - m = k - m + i by omega]

theorem extract_append_low {n m : Nat} (x : BitVec n) (y : BitVec m) (k len : Nat) (h : k + len ≤ m) :
    (x ++ y).extractLsb' k len = y.extractLsb' k len := by
  apply BitVec.eq_of_getLsbD_eq
  intro i hi
  simp [BitVec.getLsbD_extractLsb', BitVec.getLsbD_append, show k + i < m by omega]

theorem extract_all {n : Nat} (x : BitVec n) : x.extractLsb' 0 n = x := by
  apply BitVec.eq_of_getLsbD_eq
  intro i hi
  simp [hi]

/-! ### R-format words -/

variable (rs rt rd : RegIdx) (shamt : Shamt) (funct : Funct)

@[simp] theorem encodeR_opcode : (decodeFields (encodeR rs rt rd shamt funct)).opcode = 0 := by
  simp only [decodeFields, encodeR]
  iterate 5 rw [extract_append_high _ _ _ _ (by omega)]
  rfl

@[simp] theorem encodeR_rs : (decodeFields (encodeR rs rt rd shamt funct)).rs = rs := by
  simp only [decodeFields, encodeR]
  iterate 4 rw [extract_append_high _ _ _ _ (by omega)]
  rw [extract_append_low _ _ _ _ (by omega), extract_all]

@[simp] theorem encodeR_rt : (decodeFields (encodeR rs rt rd shamt funct)).rt = rt := by
  simp only [decodeFields, encodeR]
  iterate 3 rw [extract_append_high _ _ _ _ (by omega)]
  rw [extract_append_low _ _ _ _ (by omega), extract_all]

@[simp] theorem encodeR_rd : (decodeFields (encodeR rs rt rd shamt funct)).rd = rd := by
  simp only [decodeFields, encodeR]
  iterate 2 rw [extract_append_high _ _ _ _ (by omega)]
  rw [extract_append_low _ _ _ _ (by omega), extract_all]

@[simp] theorem encodeR_shamt : shamtOf (encodeR rs rt rd shamt funct) = shamt := by
  simp only [shamtOf, encodeR]
  rw [extract_append_high _ _ _ _ (by omega), extract_append_low _ _ _ _ (by omega), extract_all]

@[simp] theorem encodeR_funct : (decodeFields (encodeR rs rt rd shamt funct)).funct = funct := by
  simp only [decodeFields, encodeR]
  rw [extract_append_low _ _ _ _ (by omega), extract_all]

/-! ### I-format words -/

variable (opcode : Opcode) (imm : Imm16)

@[simp] theorem encodeI_opcode : (decodeFields (encodeI opcode rs rt imm)).opcode = opcode := by
  simp only [decodeFields, encodeI]
  iterate 3 rw [extract_append_high _ _ _ _ (by omega)]
  rw [extract_all]

@[simp] theorem encodeI_rs : (decodeFields (encodeI opcode rs rt imm)).rs = rs := by
  simp only [decodeFields, encodeI]
  iterate 2 rw [extract_append_high _ _ _ _ (by omega)]
  rw [extract_append_low _ _ _ _ (by omega), extract_all]

@[simp] theorem encodeI_rt : (decodeFields (encodeI opcode rs rt imm)).rt = rt := by
  simp only [decodeFields, encodeI]
  rw [extract_append_high _ _ _ _ (by omega), extract_append_low _ _ _ _ (by omega), extract_all]

@[simp] theorem encodeI_imm : (decodeFields (encodeI opcode rs rt imm)).imm = imm := by
  simp only [decodeFields, encodeI]
  rw [extract_append_low _ _ _ _ (by omega), extract_all]

/-! ### J-format words -/

@[simp] theorem encodeJ_opcode (idx : Target) : (decodeFields (encodeJ idx)).opcode = 2 := by
  simp only [decodeFields, encodeJ]
  rw [extract_append_high _ _ _ _ (by omega), extract_all]
  rfl

@[simp] theorem encodeJ_target (idx : Target) : targetOf (encodeJ idx) = idx := by
  simp only [targetOf, encodeJ]
  rw [extract_append_low _ _ _ _ (by omega), extract_all]

/-! ### A word from its fields -/

theorem bit_of_extract {w : Word} {k n i j : Nat} (h : j < n) (hk : k + j = i) :
    (decide (j < n) && w.getLsbD (k + j)) = w.getLsbD i := by
  simp [h, hk]

/-- A word of opcode 0 is the R-format word of its fields. -/
theorem encodeR_decodeFields (w : Word) (h : (decodeFields w).opcode = 0) :
    encodeR (decodeFields w).rs (decodeFields w).rt (decodeFields w).rd (shamtOf w) (decodeFields w).funct = w := by
  simp only [decodeFields] at h
  simp only [encodeR, decodeFields, shamtOf, show (0#6) = w.extractLsb' 26 6 from h.symm]
  apply BitVec.eq_of_getLsbD_eq
  intro i hi
  simp only [BitVec.getLsbD_append, BitVec.getLsbD_extractLsb']
  repeat' split
  all_goals exact bit_of_extract (by omega) (by omega)

/-- A word is the I-format word of its fields. -/
theorem encodeI_decodeFields (w : Word) :
    encodeI (decodeFields w).opcode (decodeFields w).rs (decodeFields w).rt (decodeFields w).imm = w := by
  apply BitVec.eq_of_getLsbD_eq
  intro i hi
  simp only [encodeI, decodeFields, BitVec.getLsbD_append, BitVec.getLsbD_extractLsb']
  repeat' split
  all_goals exact bit_of_extract (by omega) (by omega)

/-- A word of opcode 2 is the J-format word of its target. -/
theorem encodeJ_targetOf (w : Word) (h : (decodeFields w).opcode = 2) : encodeJ (targetOf w) = w := by
  simp only [decodeFields] at h
  simp only [encodeJ, targetOf, show (2#6) = w.extractLsb' 26 6 from h.symm]
  apply BitVec.eq_of_getLsbD_eq
  intro i hi
  simp only [BitVec.getLsbD_append, BitVec.getLsbD_extractLsb']
  repeat' split
  all_goals exact bit_of_extract (by omega) (by omega)

end Sys2Proof
end

