-- ==== Sys2Proof/Laws/Memory.lean ====
section
/-! SUPPORT. The laws of the data memory: every write keeps the canonical form, a read after a write gives the byte
written, and a write leaves every other byte alone. -/

namespace Sys2Proof.Machine

theorem Memory.wf_nil : Memory.wf [] := by simp [Memory.wf]

/-- The head of a canonical memory lies below its tail, and the tail is canonical. -/
theorem Memory.wf_cons_iff (c : Host.Cell) (m : Memory) :
    Memory.wf (c :: m) ↔ (∀ d ∈ m, c.1 < d.1) ∧ (c.1 < 2 ^ 32 ∧ c.2 ≠ Memory.unlisted) ∧ Memory.wf m := by
  simp only [Memory.wf, List.pairwise_cons, List.forall_mem_cons]
  tauto

/-- An address below every listed one is not listed. -/
theorem Memory.readByte_of_lt (m : Memory) (a : Nat) (h : ∀ d ∈ m, a < d.1) : m.readByte a = Memory.unlisted := by
  induction m with
  | nil => rfl
  | cons c m ih =>
    have hc := h c (by simp)
    simp only [Memory.readByte, ih fun d hd => h d (by simp [hd])]
    rw [if_neg (by omega)]

theorem Memory.readByte_cons (a b : Nat) (v : Byte) (m : Memory) (h : m.readByte a = Memory.unlisted) :
    (Memory.cons a v m).readByte b = if b = a then v else m.readByte b := by
  unfold Memory.cons
  by_cases hv : v = Memory.unlisted <;> by_cases hb : b = a <;> simp_all [Memory.readByte, eq_comm]

theorem Memory.wf_consByte (a : Nat) (v : Byte) (m : Memory) (ha : a < 2 ^ 32) (hm : m.wf) (h : ∀ d ∈ m, a < d.1) :
    (Memory.cons a v m).wf := by
  unfold Memory.cons
  split
  · exact hm
  · next hv => exact (Memory.wf_cons_iff _ _).2 ⟨h, ⟨ha, hv⟩, hm⟩

/-- A write lists no address but its own and those listed before. -/
theorem Memory.mem_writeByte (m : Memory) (a : Nat) (v : Byte) : ∀ d ∈ m.writeByte a v, d.1 = a ∨ d ∈ m := by
  have hcons : ∀ (m : Memory), ∀ d ∈ Memory.cons a v m, d.1 = a ∨ d ∈ m := by
    intro m d hd
    unfold Memory.cons at hd
    split at hd
    · exact .inr hd
    · rcases List.mem_cons.1 hd with rfl | hd
      · exact .inl rfl
      · exact .inr hd
  induction m with
  | nil => exact hcons []
  | cons c m ih =>
    intro d hd
    simp only [Memory.writeByte] at hd
    split at hd
    · exact hcons _ d hd
    · split at hd
      · rcases hcons _ d hd with h | h
        · exact .inl h
        · exact .inr (by simp [h])
      · rcases List.mem_cons.1 hd with rfl | hd
        · exact .inr (by simp)
        · rcases ih d hd with h | h
          · exact .inl h
          · exact .inr (by simp [h])

/-- A byte write keeps the canonical form. -/
theorem Memory.wf_writeByte (m : Memory) (a : Nat) (v : Byte) (ha : a < 2 ^ 32) (hm : m.wf) : (m.writeByte a v).wf := by
  induction m with
  | nil => exact Memory.wf_consByte a v [] ha hm (by simp)
  | cons c m ih =>
    obtain ⟨hlt, hc, hm'⟩ := (Memory.wf_cons_iff c m).1 hm
    simp only [Memory.writeByte]
    split
    · next h =>
      refine Memory.wf_consByte a v _ ha hm fun d hd => ?_
      rcases List.mem_cons.1 hd with rfl | hd
      · exact h
      · exact h.trans (hlt d hd)
    · split
      · next h => exact Memory.wf_consByte a v m ha hm' fun d hd => h ▸ hlt d hd
      · refine (Memory.wf_cons_iff _ _).2 ⟨fun d hd => ?_, hc, ih hm'⟩
        rcases Memory.mem_writeByte m a v d hd with h | h
        · omega
        · exact hlt d h

/-- What a byte reads as after a byte write to a canonical memory. -/
theorem Memory.readByte_writeByte (m : Memory) (a b : Nat) (v : Byte) (hm : m.wf) :
    (m.writeByte a v).readByte b = if b = a then v else m.readByte b := by
  induction m with
  | nil => exact Memory.readByte_cons a b v [] rfl
  | cons c m ih =>
    obtain ⟨hlt, _, hm'⟩ := (Memory.wf_cons_iff c m).1 hm
    simp only [Memory.writeByte]
    split
    · next h =>
      refine Memory.readByte_cons a b v _ (Memory.readByte_of_lt _ _ fun d hd => ?_)
      rcases List.mem_cons.1 hd with rfl | hd
      · exact h
      · exact h.trans (hlt d hd)
    · split
      · next h =>
        rw [Memory.readByte_cons a b v m (Memory.readByte_of_lt _ _ fun d hd => h ▸ hlt d hd)]
        by_cases hb : b = a <;> simp [Memory.readByte, hb]
        intro h'; omega
      · simp only [Memory.readByte, ih hm']
        by_cases hb : c.1 = b <;> simp [hb]
        intro h'; omega

/-- A word write keeps the canonical form. -/
theorem Memory.wf_writeWord (m : Memory) (addr v : Word) (ha : addr.toNat + 3 < 2 ^ 32) (hm : m.wf) :
    (m.writeWord addr v).wf := by
  unfold Memory.writeWord
  iterate 4 refine Memory.wf_writeByte _ _ _ (by omega) ?_
  exact hm

/-- What a byte reads as after a word write to a canonical memory: the word's own byte, or what it was. -/
theorem Memory.readByte_writeWord (m : Memory) (addr v : Word) (b : Nat) (ha : addr.toNat + 3 < 2 ^ 32) (hm : m.wf) :
    (m.writeWord addr v).readByte b =
      if addr.toNat ≤ b ∧ b < addr.toNat + 4 then byteOf v (b - addr.toNat) else m.readByte b := by
  have h0 := Memory.wf_writeByte m addr.toNat (byteOf v 0) (by omega) hm
  have h1 := Memory.wf_writeByte _ (addr.toNat + 1) (byteOf v 1) (by omega) h0
  have h2 := Memory.wf_writeByte _ (addr.toNat + 2) (byteOf v 2) (by omega) h1
  simp only [Memory.writeWord, Memory.readByte_writeByte _ _ _ _ h2, Memory.readByte_writeByte _ _ _ _ h1,
    Memory.readByte_writeByte _ _ _ _ h0, Memory.readByte_writeByte _ _ _ _ hm]
  by_cases hb : addr.toNat ≤ b ∧ b < addr.toNat + 4
  · have hk : b = addr.toNat ∨ b = addr.toNat + 1 ∨ b = addr.toNat + 2 ∨ b = addr.toNat + 3 := by omega
    rcases hk with rfl | rfl | rfl | rfl <;> simp
  · rw [if_neg hb, if_neg (by omega), if_neg (by omega), if_neg (by omega), if_neg (by omega)]

/-- The bytes of a word make the word again, whichever order the model holds them in (R60). -/
theorem wordOfBytes_byteOf (v : Word) : wordOfBytes (byteOf v 0) (byteOf v 1) (byteOf v 2) (byteOf v 3) = v := by
  apply BitVec.eq_of_getLsbD_eq
  intro i hi
  simp only [wordOfBytes, byteOf, BitVec.getLsbD_append, BitVec.getLsbD_extractLsb']
  by_cases h1 : i < 8
  · simp [h1]
  · by_cases h2 : i < 16
    · have h3 : i - 8 < 8 := by omega
      simp [h1, h3]; congr 1; omega
    · by_cases h3 : i < 24
      · have h4 : i - 8 - 8 < 8 := by omega
        simp [h1, h4]
        simp [show ¬ (i - 8 < 8) by omega]; congr 1; omega
      · simp [h1]
        simp [show ¬ (i - 8 < 8) by omega, show ¬ (i - 8 - 8 < 8) by omega, show i - 8 - 8 - 8 < 8 by omega]
        congr 1; omega

/-- Reading back the word just written. -/
theorem Memory.readWord_writeWord_same (m : Memory) (addr v : Word) (ha : addr.toNat + 3 < 2 ^ 32) (hm : m.wf) :
    (m.writeWord addr v).readWord addr = v := by
  simp only [Memory.readWord, Memory.readByte_writeWord m addr v _ ha hm]
  simpa using wordOfBytes_byteOf v

/-- A word write leaves a word apart from it alone. -/
theorem Memory.readWord_writeWord_apart (m : Memory) (addr v b : Word) (ha : addr.toNat + 3 < 2 ^ 32) (hm : m.wf)
    (hb : b.toNat + 4 ≤ addr.toNat ∨ addr.toNat + 4 ≤ b.toNat) : (m.writeWord addr v).readWord b = m.readWord b := by
  simp only [Memory.readWord, Memory.readByte_writeWord m addr v _ ha hm]
  rw [if_neg (by omega), if_neg (by omega), if_neg (by omega), if_neg (by omega)]

end Sys2Proof.Machine
end

