-- ==== Sys2Proof/Laws/State.lean ====
section
/-! SUPPORT. One lemma per field per update of the state, true by rfl, so that no later proof unfolds a record update. -/

namespace Sys2Proof.Machine

variable (s : State)

/-! ### stageReg -/

@[simp] theorem State.stageReg_regs (i : RegIdx) (v : Word) : (s.stageReg i v).regs = s.regs := rfl
@[simp] theorem State.stageReg_pendReg (i : RegIdx) (v : Word) : (s.stageReg i v).pendReg = some (i, v) := rfl
@[simp] theorem State.stageReg_pc (i : RegIdx) (v : Word) : (s.stageReg i v).pc = s.pc := rfl
@[simp] theorem State.stageReg_pendPc (i : RegIdx) (v : Word) : (s.stageReg i v).pendPc = s.pendPc := rfl
@[simp] theorem State.stageReg_imem (i : RegIdx) (v : Word) : (s.stageReg i v).imem = s.imem := rfl
@[simp] theorem State.stageReg_dmem (i : RegIdx) (v : Word) : (s.stageReg i v).dmem = s.dmem := rfl
@[simp] theorem State.stageReg_mode (i : RegIdx) (v : Word) : (s.stageReg i v).mode = s.mode := rfl
@[simp] theorem State.stageReg_cycles (i : RegIdx) (v : Word) : (s.stageReg i v).cycles = s.cycles := rfl
@[simp] theorem State.stageReg_params (i : RegIdx) (v : Word) : (s.stageReg i v).params = s.params := rfl

/-! ### stagePc -/

@[simp] theorem State.stagePc_regs (target : Word) : (s.stagePc target).regs = s.regs := rfl
@[simp] theorem State.stagePc_pendReg (target : Word) : (s.stagePc target).pendReg = s.pendReg := rfl
@[simp] theorem State.stagePc_pc (target : Word) : (s.stagePc target).pc = s.pc := rfl
@[simp] theorem State.stagePc_pendPc (target : Word) : (s.stagePc target).pendPc = some target := rfl
@[simp] theorem State.stagePc_imem (target : Word) : (s.stagePc target).imem = s.imem := rfl
@[simp] theorem State.stagePc_dmem (target : Word) : (s.stagePc target).dmem = s.dmem := rfl
@[simp] theorem State.stagePc_mode (target : Word) : (s.stagePc target).mode = s.mode := rfl
@[simp] theorem State.stagePc_cycles (target : Word) : (s.stagePc target).cycles = s.cycles := rfl
@[simp] theorem State.stagePc_params (target : Word) : (s.stagePc target).params = s.params := rfl

/-! ### commitPc -/

@[simp] theorem State.commitPc_regs : (s.commitPc).regs = s.regs := rfl
@[simp] theorem State.commitPc_pendReg : (s.commitPc).pendReg = s.pendReg := rfl
@[simp] theorem State.commitPc_pc : (s.commitPc).pc = s.nextPc := rfl
@[simp] theorem State.commitPc_pendPc : (s.commitPc).pendPc = none := rfl
@[simp] theorem State.commitPc_imem : (s.commitPc).imem = s.imem := rfl
@[simp] theorem State.commitPc_dmem : (s.commitPc).dmem = s.dmem := rfl
@[simp] theorem State.commitPc_mode : (s.commitPc).mode = s.mode := rfl
@[simp] theorem State.commitPc_cycles : (s.commitPc).cycles = s.cycles := rfl
@[simp] theorem State.commitPc_params : (s.commitPc).params = s.params := rfl

/-! ### commitReg -/

@[simp] theorem State.commitReg_regs : (s.commitReg).regs = s.committedRegs := rfl
@[simp] theorem State.commitReg_pendReg : (s.commitReg).pendReg = none := rfl
@[simp] theorem State.commitReg_pc : (s.commitReg).pc = s.pc := rfl
@[simp] theorem State.commitReg_pendPc : (s.commitReg).pendPc = s.pendPc := rfl
@[simp] theorem State.commitReg_imem : (s.commitReg).imem = s.imem := rfl
@[simp] theorem State.commitReg_dmem : (s.commitReg).dmem = s.dmem := rfl
@[simp] theorem State.commitReg_mode : (s.commitReg).mode = s.mode := rfl
@[simp] theorem State.commitReg_cycles : (s.commitReg).cycles = s.cycles := rfl
@[simp] theorem State.commitReg_params : (s.commitReg).params = s.params := rfl

/-! ### commit -/

@[simp] theorem State.commit_regs : (s.commit).regs = s.committedRegs := rfl
@[simp] theorem State.commit_pendReg : (s.commit).pendReg = none := rfl
@[simp] theorem State.commit_pc : (s.commit).pc = s.nextPc := rfl
@[simp] theorem State.commit_pendPc : (s.commit).pendPc = none := rfl
@[simp] theorem State.commit_imem : (s.commit).imem = s.imem := rfl
@[simp] theorem State.commit_dmem : (s.commit).dmem = s.dmem := rfl
@[simp] theorem State.commit_mode : (s.commit).mode = s.mode := rfl
@[simp] theorem State.commit_cycles : (s.commit).cycles = s.cycles := rfl
@[simp] theorem State.commit_params : (s.commit).params = s.params := rfl

/-! ### countCycle -/

@[simp] theorem State.countCycle_regs : (s.countCycle).regs = s.regs := rfl
@[simp] theorem State.countCycle_pendReg : (s.countCycle).pendReg = s.pendReg := rfl
@[simp] theorem State.countCycle_pc : (s.countCycle).pc = s.pc := rfl
@[simp] theorem State.countCycle_pendPc : (s.countCycle).pendPc = s.pendPc := rfl
@[simp] theorem State.countCycle_imem : (s.countCycle).imem = s.imem := rfl
@[simp] theorem State.countCycle_dmem : (s.countCycle).dmem = s.dmem := rfl
@[simp] theorem State.countCycle_mode : (s.countCycle).mode = s.mode := rfl
@[simp] theorem State.countCycle_cycles : (s.countCycle).cycles = s.cycles + 1 := rfl
@[simp] theorem State.countCycle_params : (s.countCycle).params = s.params := rfl

/-! ### startRun -/

@[simp] theorem State.startRun_regs : (s.startRun).regs = s.regs := rfl
@[simp] theorem State.startRun_pendReg : (s.startRun).pendReg = s.pendReg := rfl
@[simp] theorem State.startRun_pc : (s.startRun).pc = s.pc := rfl
@[simp] theorem State.startRun_pendPc : (s.startRun).pendPc = s.pendPc := rfl
@[simp] theorem State.startRun_imem : (s.startRun).imem = s.imem := rfl
@[simp] theorem State.startRun_dmem : (s.startRun).dmem = s.dmem := rfl
@[simp] theorem State.startRun_mode : (s.startRun).mode = s.mode := rfl
@[simp] theorem State.startRun_cycles : (s.startRun).cycles = 0 := rfl
@[simp] theorem State.startRun_params : (s.startRun).params = s.params := rfl

/-! ### setMode -/

@[simp] theorem State.setMode_regs (mode : Nat) : (s.setMode mode).regs = s.regs := rfl
@[simp] theorem State.setMode_pendReg (mode : Nat) : (s.setMode mode).pendReg = s.pendReg := rfl
@[simp] theorem State.setMode_pc (mode : Nat) : (s.setMode mode).pc = s.pc := rfl
@[simp] theorem State.setMode_pendPc (mode : Nat) : (s.setMode mode).pendPc = s.pendPc := rfl
@[simp] theorem State.setMode_imem (mode : Nat) : (s.setMode mode).imem = s.imem := rfl
@[simp] theorem State.setMode_dmem (mode : Nat) : (s.setMode mode).dmem = s.dmem := rfl
@[simp] theorem State.setMode_mode (mode : Nat) : (s.setMode mode).mode = mode := rfl
@[simp] theorem State.setMode_cycles (mode : Nat) : (s.setMode mode).cycles = s.cycles := rfl
@[simp] theorem State.setMode_params (mode : Nat) : (s.setMode mode).params = s.params := rfl

/-! ### withFetchWord -/

@[simp] theorem State.withFetchWord_regs (nbits w : Nat) : (s.withFetchWord nbits w).regs = s.regs := rfl
@[simp] theorem State.withFetchWord_pendReg (nbits w : Nat) : (s.withFetchWord nbits w).pendReg = s.pendReg := rfl
@[simp] theorem State.withFetchWord_pc (nbits w : Nat) : (s.withFetchWord nbits w).pc = s.pc := rfl
@[simp] theorem State.withFetchWord_pendPc (nbits w : Nat) : (s.withFetchWord nbits w).pendPc = s.pendPc := rfl
@[simp] theorem State.withFetchWord_imem (nbits w : Nat) : (s.withFetchWord nbits w).imem = imageWith s.imem (s.nextPc.toNat / 4) (BitVec.ofNat 32 (w % 2 ^ nbits)) := rfl
@[simp] theorem State.withFetchWord_dmem (nbits w : Nat) : (s.withFetchWord nbits w).dmem = s.dmem := rfl
@[simp] theorem State.withFetchWord_mode (nbits w : Nat) : (s.withFetchWord nbits w).mode = s.mode := rfl
@[simp] theorem State.withFetchWord_cycles (nbits w : Nat) : (s.withFetchWord nbits w).cycles = s.cycles := rfl
@[simp] theorem State.withFetchWord_params (nbits w : Nat) : (s.withFetchWord nbits w).params = s.params := rfl

/-! ### retire -/

variable (f : FrontSignals) (b : BackSignals) (m : Memory)

@[simp] theorem retire_regs : (retire f b m s).regs = s.regs := rfl
@[simp] theorem retire_pc : (retire f b m s).pc = s.pc := rfl
@[simp] theorem retire_pendPc : (retire f b m s).pendPc = some b.nextPc := rfl
@[simp] theorem retire_imem : (retire f b m s).imem = s.imem := rfl
@[simp] theorem retire_dmem : (retire f b m s).dmem = m := rfl
@[simp] theorem retire_mode : (retire f b m s).mode = s.mode := rfl
@[simp] theorem retire_cycles : (retire f b m s).cycles = s.cycles := rfl
@[simp] theorem retire_params : (retire f b m s).params = s.params := rfl

/-- A cycle without RegWrite stages no register write (R23). -/
theorem retire_pendReg_of_not_regWrite (h : f.control.regWrite = false) : (retire f b m s).pendReg = s.pendReg := by
  simp [retire, h]

/-- A cycle with RegWrite stages its writeback value (R23, R142). -/
theorem retire_pendReg_of_regWrite {v : Word} (h : f.control.regWrite = true) (hv : b.writeback = some v) :
    (retire f b m s).pendReg = some (f.writeReg, v) := by
  simp [retire, h, hv]

/-! ### The simulation start and the commit -/

@[simp] theorem State.phaseRestricted_commit : s.commit.phaseRestricted = s.phaseRestricted := rfl

@[simp] theorem State.nextPc_commit : s.commit.nextPc = s.nextPc := rfl

@[simp] theorem State.committedRegs_commit : s.commit.committedRegs = s.committedRegs := rfl

/-- Nothing is pending after a commit, so a second one changes nothing. -/
@[simp] theorem State.commit_commit : s.commit.commit = s.commit := rfl

/-- A state with nothing pending is its own commit. -/
theorem State.commit_of_none (hr : s.pendReg = none) (hp : s.pendPc = none) : s.commit = s := by
  cases s
  simp_all [State.commit, State.commitPc, State.commitReg, State.nextPc, State.committedRegs]

end Sys2Proof.Machine
end

