-- ==== Sys2Proof/Laws/Ops.lean ====
section
/-! SUPPORT. One lemma per shared operation that says what it does: alignment, register reads, the commit, the fetch and
the data-memory accesses. -/

namespace Sys2Proof.Machine

/-! ### Alignment -/

theorem aligned_iff (a : Word) : aligned a = true ↔ a.toNat % 4 = 0 := by
  have h : (a.extractLsb' 0 2).toNat = a.toNat % 4 := by simp [BitVec.extractLsb'_toNat]
  simp only [aligned, beq_iff_eq, ← h]
  exact ⟨fun e => by rw [e]; rfl, fun e => BitVec.eq_of_toNat_eq (by simpa using e)⟩

/-- An aligned word lies inside the address space. -/
theorem aligned_top (a : Word) (h : aligned a = true) : a.toNat + 3 < 2 ^ 32 := by
  have := (aligned_iff a).1 h
  have := a.isLt
  omega

/-- Two aligned words are the same or apart. -/
theorem aligned_apart (a b : Word) (ha : aligned a = true) (hb : aligned b = true) (hne : b ≠ a) :
    b.toNat + 4 ≤ a.toNat ∨ a.toNat + 4 ≤ b.toNat := by
  have := (aligned_iff a).1 ha
  have := (aligned_iff b).1 hb
  have : b.toNat ≠ a.toNat := fun e => hne (BitVec.eq_of_toNat_eq e)
  omega

/-! ### Registers -/

theorem State.readReg_zero_of_hardwired (s : State) (h : s.params.r0Hardwired = true) : s.readReg 0 = 0 := by
  simp [State.readReg, h]

theorem State.readReg_of_ordinary (s : State) (i : RegIdx) (h : ¬ (s.params.r0Hardwired = true ∧ i = 0)) :
    s.readReg i = s.regs[i.toNat]'i.isLt := by
  simp only [State.readReg]
  rw [if_neg (by simpa using h)]

/-- A read sees neither pending write (R22, R24). -/
theorem State.readReg_congr (s t : State) (i : RegIdx) (hr : t.regs = s.regs) (hp : t.params = s.params) :
    t.readReg i = s.readReg i := by
  simp only [State.readReg, hr, hp]

/-! ### Fetch -/

theorem State.exhausted_iff (s : State) : s.exhausted = true ↔ 4 * s.imem.length ≤ s.pc.toNat := by
  simp [State.exhausted]

theorem State.not_exhausted_iff (s : State) : s.exhausted = false ↔ s.pc.toNat < 4 * s.imem.length := by
  simp [State.exhausted]

/-- Everything the fetch of steps 3 and 4 can answer. -/
theorem State.fetch_cases (s : State) :
    (s.exhausted = true ∧ s.fetch = .error .programEnd) ∨
    (s.exhausted = false ∧ aligned s.pc = false ∧ s.fetch = .error (.model (.misalignedFetch s.pc))) ∨
    (s.exhausted = false ∧ aligned s.pc = true ∧ ∃ w, s.imem[s.pc.toNat / 4]? = some w ∧ s.fetch = .ok w) := by
  unfold State.fetch
  by_cases hx : s.exhausted = true
  · simp [hx]
  · by_cases ha : aligned s.pc = true
    · have hlt : s.pc.toNat / 4 < s.imem.length := by
        simp [State.exhausted] at hx
        omega
      simp [hx, ha, hlt]
    · simp [hx, ha]

theorem State.fetch_ok (s : State) (w : Word) (h : s.fetch = .ok w) :
    s.exhausted = false ∧ aligned s.pc = true ∧ s.imem[s.pc.toNat / 4]? = some w := by
  rcases s.fetch_cases with ⟨_, hf⟩ | ⟨_, _, hf⟩ | ⟨hx, ha, w', hw, hf⟩
  · simp [hf] at h
  · simp [hf] at h
  · rw [hf] at h
    cases h
    exact ⟨hx, ha, hw⟩

/-! ### Data memory -/

/-- An access is free of model faults exactly at the addresses that exist. -/
theorem dataFault_none_iff (p : Params) (addr : Word) : dataFault p addr = none ↔ dmemExists p addr = true := by
  unfold dataFault
  by_cases ha : aligned addr = true
  · by_cases hx : dmemExists p addr = true <;> simp [ha, hx]
  · simp [ha, dmemExists]

theorem dmemExists_aligned (p : Params) (addr : Word) (h : dmemExists p addr = true) : aligned addr = true := by
  simp only [dmemExists, Bool.and_eq_true] at h
  exact h.1

theorem memRead_of_exists (p : Params) (m : Memory) (addr : Word) (h : dmemExists p addr = true) :
    memRead p m addr = .ok (m.readWord addr) := by
  simp [memRead, (dataFault_none_iff p addr).2 h]

theorem memWrite_of_exists (p : Params) (m : Memory) (addr v : Word) (h : dmemExists p addr = true) :
    memWrite p m addr v = .ok (m.writeWord addr v) := by
  simp [memWrite, (dataFault_none_iff p addr).2 h]

theorem memWrite_ok (p : Params) (m m' : Memory) (addr v : Word) (h : memWrite p m addr v = .ok m') :
    dmemExists p addr = true ∧ m' = m.writeWord addr v := by
  unfold memWrite at h
  split at h
  · cases h
  · next hn => exact ⟨(dataFault_none_iff p addr).1 hn, by cases h; rfl⟩

/-- With both flags 0 the port makes no access and cannot fault, whatever the address (R59). -/
@[simp] theorem dmemPort_idle (p : Params) (m : Memory) (address dataIn : Word) :
    dmemPort p m address dataIn false false = .ok (none, m) := rfl

/-- The memory after an access is what it was, or that with the one word stored. -/
theorem dmemPort_ok (p : Params) (m m' : Memory) (address dataIn : Word) (read write : Bool) (d : Option Word)
    (h : dmemPort p m address dataIn read write = .ok (d, m')) :
    (write = false ∧ m' = m) ∨ (write = true ∧ dmemExists p address = true ∧ m' = m.writeWord address dataIn) := by
  unfold dmemPort at h
  split at h
  · cases h
  · split at h
    · cases h
    · next hw =>
      cases h
      cases write
      · exact .inl ⟨rfl, by simpa using hw.symm⟩
      · obtain ⟨hx, rfl⟩ := memWrite_ok _ _ _ _ _ (by simpa using hw)
        exact .inr ⟨rfl, hx, rfl⟩

/-- The data-memory port keeps the canonical form. -/
theorem dmemPort_wf (p : Params) (m m' : Memory) (address dataIn : Word) (read write : Bool) (d : Option Word)
    (hm : m.wf) (h : dmemPort p m address dataIn read write = .ok (d, m')) : m'.wf := by
  rcases dmemPort_ok _ _ _ _ _ _ _ _ h with ⟨_, rfl⟩ | ⟨_, hx, rfl⟩
  · exact hm
  · exact Memory.wf_writeWord _ _ _ (aligned_top _ (dmemExists_aligned _ _ hx)) hm

end Sys2Proof.Machine
end

