-- ==== Sys2Proof/Laws/Datapath.lean ====
section
/-! SUPPORT. What one cycle of the datapath can do: its inversion lemma, and its result for each row of the main control
ROM. -/

namespace Sys2Proof.Machine

/-! ### The control ROMs -/

theorem mainControl_rtype : mainControl 0 = .ok { regWrite := true, regDst := true, aluOp := 2 } := rfl

theorem mainControl_addi : mainControl 8 = .ok { aluSrc := true, regWrite := true } := rfl

theorem mainControl_lw :
    mainControl 35 = .ok { aluSrc := true, memtoReg := true, regWrite := true, memRead := true } := rfl

theorem mainControl_sw : mainControl 43 = .ok { aluSrc := true, memWrite := true } := rfl

theorem mainControl_beq : mainControl 4 = .ok { branch := true, aluOp := 1 } := rfl

theorem mainControl_j : mainControl 2 = .ok { jump := true } := rfl

theorem aluControl_add (funct : Funct) : aluControl 0 funct = .ok 2 := rfl

theorem aluControl_sub (funct : Funct) : aluControl 1 funct = .ok 6 := rfl

/-- Under opcode 0 the ALU control ROM never fails (R96). -/
theorem aluControl_rtype (funct : Funct) : ∃ code, aluControl 2 funct = .ok code := by
  revert funct; decide

/-! ### The front half -/

/-- The front half in a cycle whose two control ROMs have a row. -/
theorem frontSignals_of (w pc : Word) (ctl : Control) (code : AluCode) (h : mainControl (decodeFields w).opcode = .ok ctl)
    (hc : aluControl ctl.aluOp (decodeFields w).funct = .ok code) :
    frontSignals w pc = .ok {
      pc := pc, pcPlus4 := pcPlus4 pc, instr := w, fields := decodeFields w, control := ctl
      sextImm := sext (decodeFields w).imm
      writeReg := writeRegMux (decodeFields w).rt (decodeFields w).rd ctl.regDst
      aluOp := code
      branchAddr := branchAddr (pcPlus4 pc) (sext (decodeFields w).imm)
      jumpAddr := jumpAddr (pcPlus4 pc) w } := by
  simp [frontSignals, h, hc]

/-- What the wires of a front half that succeeds are. -/
theorem frontSignals_ok (w pc : Word) (f : FrontSignals) (h : frontSignals w pc = .ok f) :
    mainControl (decodeFields w).opcode = .ok f.control ∧ f.fields = decodeFields w ∧ f.pcPlus4 = pcPlus4 pc ∧
    f.branchAddr = branchAddr (pcPlus4 pc) (sext (decodeFields w).imm) ∧ f.jumpAddr = jumpAddr (pcPlus4 pc) w ∧
    f.writeReg = writeRegMux (decodeFields w).rt (decodeFields w).rd f.control.regDst := by
  simp only [frontSignals] at h
  split at h
  · cases h
  · next hctl =>
    split at h
    · cases h
    · cases h
      exact ⟨hctl, rfl, rfl, rfl, rfl, rfl⟩

/-! ### The whole cycle -/

/-- Everything a cycle that completes can do to the state. -/
theorem datapath_next (w : Word) (s t : State) (h : datapath w s = .next t) :
    ∃ f, frontSignals w s.pc = .ok f ∧
      ((s.phaseRestricted = true ∧ t = s.stagePc f.pcPlus4) ∨
       (s.phaseRestricted = false ∧ ∃ b m, backSignals f s = .ok (b, m) ∧ t = retire f b m s)) := by
  simp only [datapath] at h
  split at h
  · cases h
  · next f hf =>
    refine ⟨f, hf, ?_⟩
    split at h
    · next hp => exact .inl ⟨hp, by cases h; rfl⟩
    · next hp =>
      split at h
      · cases h
      · next b m hb => exact .inr ⟨by simpa using hp, b, m, hb, by cases h; rfl⟩

/-- What the back half leaves of the data memory, and the address it stages. -/
theorem backSignals_ok (f : FrontSignals) (s : State) (b : BackSignals) (m : Memory)
    (h : backSignals f s = .ok (b, m)) :
    ((f.control.memWrite = false ∧ m = s.dmem) ∨
     (f.control.memWrite = true ∧ dmemExists s.params b.aluResult = true ∧
       m = s.dmem.writeWord b.aluResult (s.readReg f.fields.rt))) ∧
    b.nextPc = nextPcMux f.pcPlus4 f.branchAddr f.jumpAddr b.pcSrc f.control.jump := by
  simp only [backSignals] at h
  split at h
  · cases h
  · next r z hr =>
    split at h
    · cases h
    · next d m' hd =>
      cases h
      exact ⟨dmemPort_ok _ _ _ _ _ _ _ _ hd, rfl⟩

/-- A completed cycle changes no committed register, no committed PC, no instruction word, no mode, no parameter and not
the count (R24, R54, R137, R244). -/
theorem datapath_frame (w : Word) (s t : State) (h : datapath w s = .next t) :
    t.regs = s.regs ∧ t.pc = s.pc ∧ t.imem = s.imem ∧ t.mode = s.mode ∧ t.cycles = s.cycles ∧ t.params = s.params := by
  obtain ⟨f, -, ⟨-, rfl⟩ | ⟨-, b, m, -, rfl⟩⟩ := datapath_next w s t h <;> exact ⟨rfl, rfl, rfl, rfl, rfl, rfl⟩

/-- A phase-restricted cycle whose front half succeeds stages PC+4 and nothing else (R138). -/
theorem datapath_restricted (w : Word) (s : State) (f : FrontSignals) (hf : frontSignals w s.pc = .ok f)
    (hp : s.phaseRestricted = true) : datapath w s = .next (s.stagePc (pcPlus4 s.pc)) := by
  have := (frontSignals_ok w s.pc f hf).2.2.1
  simp [datapath, hf, hp, this]

/-! ### Results by row of the main control ROM, outside the phase restriction -/

/-- Opcode 0: the ALU's result is staged into rd (R166). -/
theorem datapath_rtype (w : Word) (s : State) (code : AluCode) (r : Word) (hp : s.phaseRestricted = false)
    (hop : (decodeFields w).opcode = 0) (hc : aluControl 2 (decodeFields w).funct = .ok code)
    (hr : aluResult (s.readReg (decodeFields w).rs) (s.readReg (decodeFields w).rt) code = some r) :
    datapath w s = .next { s with pendReg := some ((decodeFields w).rd, r), pendPc := some (pcPlus4 s.pc) } := by
  have hf := frontSignals_of w s.pc _ code (by rw [hop]; exact mainControl_rtype) hc
  simp [datapath, hf, hp, backSignals, alu, hr, aluBMux, mux, retire, writebackMux, nextPcMux, pcSrc, writeRegMux]

/-- Opcode 8: the sum is staged into rt (R183). -/
theorem datapath_addi (w : Word) (s : State) (hp : s.phaseRestricted = false) (hop : (decodeFields w).opcode = 8) :
    datapath w s = .next { s with
      pendReg := some ((decodeFields w).rt, s.readReg (decodeFields w).rs + sext (decodeFields w).imm)
      pendPc := some (pcPlus4 s.pc) } := by
  have hf := frontSignals_of w s.pc _ 2 (by rw [hop]; exact mainControl_addi) (aluControl_add _)
  simp [datapath, hf, hp, backSignals, alu, aluResult, aluBMux, mux, retire, writebackMux, nextPcMux, pcSrc, writeRegMux]

/-- Opcode 35: the word at an address that exists is staged into rt; at any other, the model fault (R181). -/
theorem datapath_lw (w : Word) (s : State) (hp : s.phaseRestricted = false) (hop : (decodeFields w).opcode = 35) :
    datapath w s =
      let addr := s.readReg (decodeFields w).rs + sext (decodeFields w).imm
      match dataFault s.params addr with
      | some e => modelStop e
      | none => .next { s with
          pendReg := some ((decodeFields w).rt, s.dmem.readWord addr), pendPc := some (pcPlus4 s.pc) } := by
  have hf := frontSignals_of w s.pc _ 2 (by rw [hop]; exact mainControl_lw) (aluControl_add _)
  cases hd : dataFault s.params (s.readReg (decodeFields w).rs + sext (decodeFields w).imm) <;>
    simp [datapath, hf, hp, backSignals, alu, aluResult, aluBMux, mux, dmemPort, memRead, hd, Except.map, retire,
      writebackMux, nextPcMux, pcSrc, writeRegMux]

/-- Opcode 43: the word is stored at an address that exists; at any other, the model fault (R182). -/
theorem datapath_sw (w : Word) (s : State) (hp : s.phaseRestricted = false) (hop : (decodeFields w).opcode = 43) :
    datapath w s =
      let addr := s.readReg (decodeFields w).rs + sext (decodeFields w).imm
      match dataFault s.params addr with
      | some e => modelStop e
      | none => .next { s with
          dmem := s.dmem.writeWord addr (s.readReg (decodeFields w).rt), pendPc := some (pcPlus4 s.pc) } := by
  have hf := frontSignals_of w s.pc _ 2 (by rw [hop]; exact mainControl_sw) (aluControl_add _)
  cases hd : dataFault s.params (s.readReg (decodeFields w).rs + sext (decodeFields w).imm) <;>
    simp [datapath, hf, hp, backSignals, alu, aluResult, aluBMux, mux, dmemPort, memWrite, hd, retire, writebackMux,
      nextPcMux, pcSrc]

/-- Opcode 4: the branch decision selects the staged PC (R119, R120). -/
theorem datapath_beq (w : Word) (s : State) (hp : s.phaseRestricted = false) (hop : (decodeFields w).opcode = 4) :
    datapath w s = .next { s with
      pendPc := some (
        if branchZero s.params.branchZero
            (zeroFlag (s.readReg (decodeFields w).rs - s.readReg (decodeFields w).rt)) then
          branchAddr (pcPlus4 s.pc) (sext (decodeFields w).imm)
        else pcPlus4 s.pc) } := by
  have hf := frontSignals_of w s.pc _ 6 (by rw [hop]; exact mainControl_beq) (aluControl_sub _)
  simp [datapath, hf, hp, backSignals, alu, aluResult, aluBMux, mux, retire, writebackMux, nextPcMux, pcSrc]

/-- Opcode 2: the jump address is staged (R120). -/
theorem datapath_j (w : Word) (s : State) (hp : s.phaseRestricted = false) (hop : (decodeFields w).opcode = 2) :
    datapath w s = .next { s with pendPc := some (jumpAddr (pcPlus4 s.pc) w) } := by
  have hf := frontSignals_of w s.pc _ 2 (by rw [hop]; exact mainControl_j) (aluControl_add _)
  simp [datapath, hf, hp, backSignals, alu, aluResult, aluBMux, mux, retire, writebackMux, nextPcMux, pcSrc]

end Sys2Proof.Machine
end

