-- ==== Sys2Proof/Laws/PerInstr.lean ====
section
/-! SUPPORT. Facts about every instruction as syntax, one lemma per constructor. `ControlRow`: the main control ROM and
the ALU control ROM both have a row for the word of every instruction. -/

namespace Sys2Proof.Laws.ControlRow

open Sys2Proof.Machine

/-- Both control ROMs succeed on the instruction's word, and the field decoder is what they read. -/
def Statement (i : Instr) : Prop :=
  ∃ ctl code, mainControl (decodeFields (encode i)).opcode = .ok ctl ∧
    aluControl ctl.aluOp (decodeFields (encode i)).funct = .ok code

theorem ofR (rs rt rd : RegIdx) (shamt : Shamt) (funct : Funct) :
    ∃ ctl code, mainControl (decodeFields (encodeR rs rt rd shamt funct)).opcode = .ok ctl ∧
      aluControl ctl.aluOp (decodeFields (encodeR rs rt rd shamt funct)).funct = .ok code := by
  obtain ⟨code, h⟩ := aluControl_rtype funct
  exact ⟨_, code, by rw [encodeR_opcode]; exact mainControl_rtype, by rw [encodeR_funct]; exact h⟩

theorem add (rd rs rt : RegIdx) (shamt : Shamt) : Statement (.add rd rs rt shamt) := ofR ..

theorem sub (rd rs rt : RegIdx) (shamt : Shamt) : Statement (.sub rd rs rt shamt) := ofR ..

theorem and (rd rs rt : RegIdx) (shamt : Shamt) : Statement (.and rd rs rt shamt) := ofR ..

theorem or (rd rs rt : RegIdx) (shamt : Shamt) : Statement (.or rd rs rt shamt) := ofR ..

theorem slt (rd rs rt : RegIdx) (shamt : Shamt) : Statement (.slt rd rs rt shamt) := ofR ..

theorem rFallback (rd rs rt : RegIdx) (shamt : Shamt) (funct : Funct) : Statement (.rFallback rd rs rt shamt funct) :=
  ofR ..

theorem addi (rt rs : RegIdx) (imm : Imm16) : Statement (.addi rt rs imm) :=
  ⟨_, 2, by rw [encode, encodeI_opcode]; exact mainControl_addi, aluControl_add _⟩

theorem lw (rt rs : RegIdx) (imm : Imm16) : Statement (.lw rt rs imm) :=
  ⟨_, 2, by rw [encode, encodeI_opcode]; exact mainControl_lw, aluControl_add _⟩

theorem sw (rt rs : RegIdx) (imm : Imm16) : Statement (.sw rt rs imm) :=
  ⟨_, 2, by rw [encode, encodeI_opcode]; exact mainControl_sw, aluControl_add _⟩

theorem beq (rs rt : RegIdx) (off : Imm16) : Statement (.beq rs rt off) :=
  ⟨_, 6, by rw [encode, encodeI_opcode]; exact mainControl_beq, aluControl_sub _⟩

theorem j (idx : Target) : Statement (.j idx) :=
  ⟨_, 2, by rw [encode, encodeJ_opcode]; exact mainControl_j, aluControl_add _⟩

end Sys2Proof.Laws.ControlRow
end

