-- ==== Sys2Proof/Laws/Step.lean ====
section
/-! SUPPORT. What a step can do: the instruction it runs is the decoded one, and every instruction is one cycle of the
datapath on its word. -/

namespace Sys2Proof.Machine

/-- Every meaning is one cycle of the datapath on the instruction's word. -/
theorem exec_eq_datapath (i : Instr) (s : State) : exec i s = datapath (encode i) s := by
  cases i <;> rfl

/-- Everything a step that completes has done. -/
theorem step_next (s t : State) (h : step s = .next t) :
    ∃ w i u, s.commit.fetch = .ok w ∧ decode w = .ok i ∧ exec i s.commit = .next u ∧ t = u.countCycle := by
  simp only [step, stepCommitted] at h
  split at h
  · cases h
  · next w hw =>
    split at h
    · cases h
    · next i hi =>
      split at h
      · next u hu => exact ⟨w, i, u, hw, hi, hu, by cases h; rfl⟩
      · cases h
      · cases h

/-- A step that completes leaves the image, the mode and the parameters alone, commits what was pending, and counts one
cycle. -/
theorem step_frame (s t : State) (h : step s = .next t) :
    t.imem = s.imem ∧ t.mode = s.mode ∧ t.params = s.params ∧ t.regs = s.committedRegs ∧ t.pc = s.nextPc ∧
    t.cycles = s.cycles + 1 := by
  obtain ⟨w, i, u, -, -, hu, rfl⟩ := step_next s t h
  rw [exec_eq_datapath] at hu
  obtain ⟨h1, h2, h3, h4, h5, h6⟩ := datapath_frame _ _ _ hu
  exact ⟨by simp [h3], by simp [h4], by simp [h6], by simp [h1], by simp [h2], by simp [h5]⟩

end Sys2Proof.Machine
end

