-- ==== Sys2Proof/Tests/Slice0.lean ====
section
/-! SUPPORT. The model's own tests: expected values are those of 95_test_vectors.md and of the spec's encodings; and, for
every statement with hypotheses, a state and operands that meet them. -/

namespace Sys2Proof.Tests

open Sys2Proof.Machine

/-! ### A small state, and what an outcome holds -/

/-- An image, a PC and some registers; everything else as at reset. -/
def prep (image : List Word) (pc : Word) (regs : List (RegIdx × Word)) : State :=
  { State.reset with imem := image, pc := pc, regs := regs.foldl (fun v r => v.set r.1.toNat r.2 r.1.isLt) resetRegs }

/-- The state with every open parameter at its other value, and the data addresses 0 to 0xFF. -/
def otherParams (s : State) : State :=
  { s with params := { branchZero := .staleZero, r0Hardwired := true, dmemValid := [⟨0, 0xFF⟩] } }

def nextOf : Outcome → Option State
  | .next s => some s
  | .fault _ => none
  | .refused _ => none

def faultOf : Outcome → Option Fault
  | .next _ => none
  | .fault f => some f
  | .refused _ => none

def pendRegOf (o : Outcome) : Option (RegIdx × Word) := (nextOf o).bind (·.pendReg)

def pendPcOf (o : Outcome) : Option Word := (nextOf o).bind (·.pendPc)

/-! ### WellFormed: each function code that names an operation is refused in a fallback -/

theorem test_wf_refuses_named_functs :
    (Instr.rFallback 1 2 3 0 32).wf = false ∧ (Instr.rFallback 1 2 3 0 34).wf = false ∧
    (Instr.rFallback 1 2 3 0 36).wf = false ∧ (Instr.rFallback 1 2 3 0 37).wf = false ∧
    (Instr.rFallback 1 2 3 0 42).wf = false := by decide

theorem test_wf_accepts : (Instr.rFallback 1 2 3 0 33).wf = true ∧ (Instr.j 0).wf = true := by decide

/-! ### Decoding: words written out field by field from 30_encoding.md R72, R76, R77 -/

theorem test_decode_add : decode 0b000000_00001_00010_00011_00000_100000 = .ok (.add 3 1 2 0) := by decide
theorem test_decode_sub : decode 0b000000_11111_00010_00101_00000_100010 = .ok (.sub 5 31 2 0) := by decide
theorem test_decode_and : decode 0b000000_00011_00010_00111_11111_100100 = .ok (.and 7 3 2 31) := by decide
theorem test_decode_or : decode 0b000000_11111_00000_11111_00000_100101 = .ok (.or 31 31 0 0) := by decide
theorem test_decode_slt : decode 0b000000_00101_00001_00110_00000_101010 = .ok (.slt 6 5 1 0) := by decide
theorem test_decode_fallback : decode 0b000000_00001_00010_00011_00000_001000 = .ok (.rFallback 3 1 2 0 8) := by decide
theorem test_decode_zero : decode 0x00000000 = .ok (.rFallback 0 0 0 0 0) := by decide
theorem test_decode_addi : decode 0b001000_00001_00100_1111111111111111 = .ok (.addi 4 1 0xFFFF) := by decide
theorem test_decode_lw : decode 0b100011_00001_00101_0000000000001000 = .ok (.lw 5 1 8) := by decide
theorem test_decode_sw : decode 0b101011_00001_00010_0000000000001000 = .ok (.sw 2 1 8) := by decide
theorem test_decode_beq : decode 0b000100_00001_00010_0000000000000011 = .ok (.beq 1 2 3) := by decide
theorem test_decode_j : decode 0b000010_00000000000000000000010000 = .ok (.j 16) := by decide
theorem test_decode_unsupported :
    decode 0x0C000000 = .error .unsupportedOpcode ∧ decode 0x14220003 = .error .unsupportedOpcode ∧
    decode 0xFC000000 = .error .unsupportedOpcode := by decide

/-- V1. -/
theorem test_fields :
    decodeFields 0x2024FFFF = ⟨8, 1, 4, 31, 63, 0xFFFF⟩ ∧ decodeFields 0x00A1302A = ⟨0, 5, 1, 6, 42, 0x302A⟩ ∧
    targetOf 0x03E0F825 = 0x3E0F825 := by decide

theorem test_encode :
    encode (.add 3 1 2 0) = 0x00221820 ∧ encode (.addi 4 1 0xFFFF) = 0x2024FFFF ∧ encode (.lw 5 1 8) = 0x8C250008 ∧
    encode (.sw 2 1 8) = 0xAC220008 ∧ encode (.beq 1 2 3) = 0x10220003 ∧ encode (.j 16) = 0x08000010 := by decide

theorem test_decodeTableWord :
    decodeTableWord 32 0x00221820 = some (.add 3 1 2 0) ∧ decodeTableWord 32 0xFC000000 = none := by decide

/-! ### Units -/

/-- V4. -/
theorem test_sext : sext 0x7FFF = 0x00007FFF ∧ sext 0x8000 = 0xFFFF8000 ∧ sext 0xABCD = 0xFFFFABCD := by decide

/-- V5. -/
theorem test_branchAddr :
    branchAddr (pcPlus4 0x100) (sext 0x8000) = 0xFFFE0104 ∧ branchAddr (pcPlus4 0) (sext 0xFFFE) = 0xFFFFFFFC ∧
    branchAddr (pcPlus4 0xFFFFFFF8) (sext 1) = 0 := by decide

/-- V6. -/
theorem test_jumpAddr :
    jumpAddr (pcPlus4 0x0FFFFFFC) 0x08000001 = 0x10000004 ∧ jumpAddr (pcPlus4 0xF0000100) 0x0BFFFFFF = 0xFFFFFFFC ∧
    jumpAddr (pcPlus4 0xFFFFFFFC) 0x08000003 = 0x0000000C := by decide

/-- V7. -/
theorem test_alu :
    alu 0xFFFFFFFF 1 2 = .ok (0, true) ∧ alu 0 1 6 = .ok (0xFFFFFFFF, false) ∧ alu 0xC 0xA 0 = .ok (8, false) ∧
    alu 0xC 0xA 1 = .ok (0xE, false) ∧ alu 0x80000000 0x7FFFFFFF 7 = .ok (1, false) ∧
    alu 0x7FFFFFFF 0x80000000 7 = .ok (0, true) ∧ alu 1 1 3 = .error (.unreachableALUCode 3) := by decide

/-- The canonical form: a rewritten byte is kept once, and the unlisted byte is not listed. -/
theorem test_memory_canonical :
    Memory.writeByte (Memory.writeByte [] 8 5) 4 7 = [(4, 7), (8, 5)] ∧
    Memory.writeByte [(4, 7), (8, 5)] 8 0 = [(4, 7)] ∧
    Memory.writeWord [] 0x108 0x1234ABCD = [(0x108, 0xCD), (0x109, 0xAB), (0x10A, 0x34), (0x10B, 0x12)] ∧
    Memory.readWord [(0x108, 0xCD), (0x109, 0xAB), (0x10A, 0x34), (0x10B, 0x12)] 0x108 = 0x1234ABCD := by decide

/-! ### One step of each instruction (V8 to V10, V12) -/

theorem test_add : pendRegOf (step (prep [0x00221820] 0 [(1, 5), (2, 7)])) = some (3, 0xC) := by decide
theorem test_add_wraps_source_is_dest : pendRegOf (step (prep [0x00210820] 0 [(1, 0x80000001)])) = some (1, 2) := by decide
theorem test_sub : pendRegOf (step (prep [0x00222822] 0 [(1, 0x80000000), (2, 1)])) = some (5, 0x7FFFFFFF) := by decide
theorem test_and : pendRegOf (step (prep [0x00623824] 0 [(3, 0xC), (2, 7)])) = some (7, 4) := by decide
theorem test_or : pendRegOf (step (prep [0x00624025] 0 [(3, 0xC), (2, 7)])) = some (8, 0xF) := by decide
theorem test_slt_signed : pendRegOf (step (prep [0x0022302A] 0 [(1, 0xFFFFFFFF), (2, 1)])) = some (6, 1) := by decide
theorem test_slt_order : pendRegOf (step (prep [0x0041302A] 0 [(1, 0xFFFFFFFF), (2, 1)])) = some (6, 0) := by decide
theorem test_fallback_is_and : pendRegOf (step (prep [0x00221821] 0 [(1, 5), (2, 7)])) = some (3, 5) := by decide
theorem test_fallback_does_not_jump : pendPcOf (step (prep [0x00221808] 0 [(1, 0xFF), (2, 0xF)])) = some 4 := by decide
theorem test_addi : pendRegOf (step (prep [0x2024FFFF] 0 [(1, 10)])) = some (4, 9) := by decide
theorem test_addi_low : pendRegOf (step (prep [0x20018000] 0 [])) = some (1, 0xFFFF8000) := by decide

theorem test_lw :
    pendRegOf (step { prep [0x8C25FFFC] 0 [(1, 0x100)] with dmem := Memory.writeWord [] 0xFC 0xCAFEF00D }) =
      some (5, 0xCAFEF00D) := by decide

theorem test_lw_stops :
    faultOf (step (prep [0x8C250001] 0 [(1, 0x100)])) = some (.model (.misalignedData 0x101)) ∧
    faultOf (step (otherParams (prep [0x8C250000] 0 [(1, 0x100)]))) = some (.model (.dataOutOfRange 0x100)) := by decide

theorem test_sw :
    (nextOf (step (prep [0xAC220008] 0 [(1, 0x100), (2, 0x1234ABCD)]))).map (fun t => (t.dmem.readWord 0x108, t.pendReg)) =
      some (0x1234ABCD, none) := by decide

theorem test_sw_stops :
    faultOf (step (prep [0xAC010002] 0 [(1, 1)])) = some (.model (.misalignedData 2)) ∧
    faultOf (step (otherParams (prep [0xAC02FFFC] 0 [(2, 1)]))) = some (.model (.dataOutOfRange 0xFFFFFFFC)) := by decide

theorem test_beq :
    pendPcOf (exec (.beq 1 2 3) (prep [] 0x100 [(1, 5), (2, 5)])) = some 0x110 ∧
    pendPcOf (exec (.beq 1 2 3) (prep [] 0x100 [(1, 5), (2, 6)])) = some 0x104 := by decide

theorem test_beq_stale : pendPcOf (exec (.beq 1 2 3) (otherParams (prep [] 0x100 [(1, 5), (2, 5)]))) = some 0x104 := by
  decide

theorem test_j : pendPcOf (exec (.j 16) (prep [] 0x100 [])) = some 0x40 := by decide

theorem test_j_restricted : pendPcOf (exec (.j 16) ((prep [] 0x100 []).setMode 1)) = some 0x104 := by decide

theorem test_sw_restricted :
    (nextOf (step ((prep [0xAC220008] 0 [(1, 0x100), (2, 5)]).setMode 1))).map (·.dmem) = some [] := by decide

/-! ### The commit, the stops and the run contract -/

/-- V8's `add $0, $1, $2`, committed under both values of R0_HARDWIRED. -/
theorem test_commit_register_zero :
    (((prep [] 0 []).stageReg 0 0xC).commit.readReg 0) = 0xC ∧
    ((otherParams ((prep [] 0 []).stageReg 0 0xC)).commit.readReg 0) = 0 := by decide

/-- E6. -/
theorem test_unsupported_opcode :
    run 0 5 (prep [0x20010001, 0xFC000000] 0 []) =
      some (.fatal (.unsupportedOpcode 4 0xFC000000 63),
        { prep [0x20010001, 0xFC000000] 4 [(1, 1)] with cycles := 1 }) := by decide

/-- V11, V13: an exhausted PC before a misaligned one, and a misaligned PC inside the image. -/
theorem test_fetch_stops :
    faultOf (step (prep [0x20010001] 5 [])) = some .programEnd ∧
    faultOf (step (prep [0x20010001] 2 [])) = some (.model (.misalignedFetch 2)) ∧
    faultOf (step State.reset) = some .programEnd := by decide

/-- P5: a budget stop leaves the writes pending, and the next run commits them. -/
theorem test_resume :
    (run 1 2 (prep [0x20010005, 0x20220001] 0 [])).map (fun r => (r.1, r.2.pc, r.2.pendPc, r.2.pendReg)) =
      some (.done 1 .budgetSpent, 0, some 4, some (1, 5)) ∧
    ((run 1 2 (prep [0x20010005, 0x20220001] 0 [])).bind fun r => run 0 3 r.2).map
        (fun r => (r.1, r.2.pc, r.2.queryReg 1, r.2.queryReg 2)) =
      some (.done 1 .programEnd, 8, 5, 6) := by decide

/-- The host's placement of one instruction: the next step from reset runs it. -/
theorem test_withFetchWord :
    pendRegOf (step (State.reset.withFetchWord 32 0x20017FFF)) = some (1, 0x7FFF) ∧
    (nextOf (step ((State.reset.stagePc 8).withFetchWord 32 0x08000010))).map (fun t => (t.pc, t.pendPc)) =
      some (8, some 0x40) := by decide

/-! ### Witnesses: states and operands that meet the hypotheses of the statements

`plain` runs normally with every open parameter as at reset, `other` with every one at its other value. -/

def plain : State := prep [0x00221820] 0 [(1, 0xFFFFFFFC), (2, 5)]

def other : State := otherParams plain

theorem witness_DecodeEncodeRoundTrip :
    (Instr.rFallback 31 31 31 31 63).wf = true ∧ (Instr.j 0x3FFFFFF).wf = true := by decide

theorem witness_EncodeDecodeRoundTrip : decode 0x00221FFF = .ok (.rFallback 3 1 2 31 63) := by decide

/-- One word for each row, every bit outside the mask set. -/
theorem witness_TableRowsDecodeToTheirInstruction :
    (0x03FFFFE0 : Word) &&& 0xFC00003F = 0x20 ∧ (0x03FFFFE2 : Word) &&& 0xFC00003F = 0x22 ∧
    (0x03FFFFE4 : Word) &&& 0xFC00003F = 0x24 ∧ (0x03FFFFE5 : Word) &&& 0xFC00003F = 0x25 ∧
    (0x03FFFFEA : Word) &&& 0xFC00003F = 0x2A ∧ (0x23FFFFFF : Word) &&& 0xFC000000 = 0x20000000 ∧
    (0x8FFFFFFF : Word) &&& 0xFC000000 = 0x8C000000 ∧ (0xAFFFFFFF : Word) &&& 0xFC000000 = 0xAC000000 ∧
    (0x13FFFFFF : Word) &&& 0xFC000000 = 0x10000000 ∧ (0x0BFFFFFF : Word) &&& 0xFC000000 = 0x08000000 ∧
    (0x03FFFFFF : Word) &&& 0xFC000000 = 0 ∧ (decodeFields 0x03FFFFFF).funct ∉ namedFuncts := by decide

theorem witness_UnreachableControlErrorsNeverHappen : mainControl 0 = .ok { regWrite := true, regDst := true, aluOp := 2 } := by
  decide

theorem witness_SignExtension : 16 ≤ 31 ∧ 31 < 32 := by decide

theorem witness_ArithmeticUnit : (15 : AluCode) ∉ ([0, 1, 2, 6, 7] : List AluCode) := by decide

/-- Register 0 hardwired and not, and another register. -/
theorem witness_RegisterReadPort :
    other.params.r0Hardwired = true ∧ ¬ (plain.params.r0Hardwired = true ∧ (0 : RegIdx) = 0) ∧
    ¬ (other.params.r0Hardwired = true ∧ (31 : RegIdx) = 0) ∧ (0 : RegIdx) ≠ 31 := by decide

theorem witness_CommitIsTheClockEdge :
    (plain.stagePc 8).pendPc = some 8 ∧ plain.pendPc = none ∧ plain.pendReg = none ∧
    (other.stageReg 0 9).pendReg = some (0, 9) ∧ other.params.r0Hardwired = true ∧
    (plain.stageReg 0 9).pendReg = some (0, 9) ∧ ¬ (plain.params.r0Hardwired = true ∧ (0 : RegIdx) = 0) := by decide

/-- Completions, normal and restricted: for StagedWritesAreNotObservedInTheirCycle, EveryCompletedCycleStagesThePc,
RegisterWritesGoToTheDestination and DataMemoryFrame. -/
theorem witness_completions :
    (nextOf (exec (.add 3 1 2 0) plain)).isSome = true ∧ (nextOf (exec (.sw 2 1 0) plain)).isSome = true ∧
    (nextOf (exec (.beq 1 1 3) plain)).isSome = true ∧ (nextOf (exec (.j 3) (plain.setMode 1))).isSome = true ∧
    plain.phaseRestricted = false ∧ (plain.setMode 1).phaseRestricted = true ∧ plain.dmem.wf := by decide

/-- The clauses of RegisterWritesGoToTheDestination and DataMemoryFrame at the last word of memory. -/
theorem witness_frames :
    destReg (.lw 5 1 0) = some 5 ∧ destReg (.sw 2 1 0) = none ∧ storeAddr plain (.add 3 1 2 0) = none ∧
    storeAddr plain (.sw 2 1 0) = some 0xFFFFFFFC := by decide

theorem witness_frames_outside : ¬ inWord 0xFFFFFFFC 0xFFFFFFFB ∧ ¬ inWord 0xFFFFFFFC 0x100000000 := by
  simp [inWord]

/-- The instructions' results outside the phase restriction. -/
theorem witness_normal : plain.phaseRestricted = false ∧ other.phaseRestricted = false ∧
    (Instr.rFallback 0 1 2 3 31).wf = true := by decide

/-- The three clauses of LwStagesTheLoadedWord and SwStoresTheWord, and of DataMemoryIsAMapOfWords, at the ends of the
address space and of DMEM_VALID. -/
theorem witness_LwSw_clauses :
    (plain.readReg 1 + sext 3).toNat % 4 ≠ 0 ∧
    ((other.readReg 1 + sext 0).toNat % 4 = 0 ∧ dmemExists other.params (other.readReg 1 + sext 0) = false) ∧
    ((other.readReg 0 + sext 0x100).toNat % 4 = 0 ∧ dmemExists other.params (other.readReg 0 + sext 0x100) = false) ∧
    dmemExists other.params (other.readReg 0 + sext 0xFC) = true ∧
    dmemExists plain.params (plain.readReg 1 + sext 0) = true := by decide

theorem witness_PhaseRestrictedCycleOnlyAdvances : (plain.setMode 0xF).phaseRestricted = true := by decide

theorem witness_StoreThenLoadGivesTheStoredWord :
    plain.dmem.wf ∧ plain.pendReg = none ∧ plain.phaseRestricted = false ∧
    dmemExists plain.params (plain.readReg 1 + sext 0) = true := by decide

theorem witness_StepRunsTheDecodedInstruction :
    plain.nextPc.toNat % 4 = 0 ∧ plain.imem[plain.nextPc.toNat / 4]? = some 0x00221820 ∧
    decode 0x00221820 = .ok (.add 3 1 2 0) := by decide

/-- The three clauses of StopsComeInTheSpecsOrder, at the image's end and just inside it. -/
theorem witness_StopsComeInTheSpecsOrder :
    4 * plain.imem.length ≤ (plain.stagePc 4).nextPc.toNat ∧
    ((plain.stagePc 3).nextPc.toNat < 4 * plain.imem.length ∧ (plain.stagePc 3).nextPc.toNat % 4 ≠ 0) ∧
    (plain.nextPc.toNat % 4 = 0 ∧ plain.imem[plain.nextPc.toNat / 4]? = some 0x00221820) := by decide

/-- A word outside the opcode set and one inside it. -/
theorem witness_UnsupportedOpcodeIsRaisedExactlyOutsideTheSet :
    (prep [0xB0000000] 0 []).imem[(prep [0xB0000000] 0 []).nextPc.toNat / 4]? = some 0xB0000000 ∧
    (decodeFields 0xB0000000).opcode ∉ supportedOpcodes ∧ (decodeFields 0xAC000000).opcode ∈ supportedOpcodes := by decide

/-- A step that completes, from a state that meets the invariant: for StepKeepsImageModeAndParameters,
StepStoresOnlyWhereDataExists and StepKeepsInv. -/
theorem witness_step_completes : (nextOf (step plain)).isSome = true ∧ plain.dmem.wf := by decide

theorem witness_StepKeepsInv : plain.Inv := ⟨by decide, by decide, fun _ h => by cases h⟩

/-- A byte address that lies in no existing word. -/
theorem witness_StepStoresOnlyWhereDataExists :
    ∀ addr, dmemExists plain.params addr = true → ¬ inWord addr 0x100000000 := by
  intro addr h hi
  have h4 : addr.toNat % 4 = 0 := by
    have h' : (addr.extractLsb' 0 2).toNat = 0 := by
      simp only [dmemExists, aligned, Bool.and_eq_true, beq_iff_eq] at h
      rw [h.1]; rfl
    simpa [BitVec.extractLsb'_toNat] using h'
  have := addr.isLt
  simp only [inWord] at hi
  omega

theorem witness_OnlyModeBitZeroMatters : Nat.testBit 0xFFFFFFFE 0 = plain.mode.testBit 0 := by decide

theorem witness_StartHasInv : (0xFFFFFFFC : Word).toNat % 4 = 0 ∧ Memory.wf [(0xFFFFFFFF, 1)] := by decide

theorem witness_PhaseRestrictedRunsNeverMutate :
    (plain.setMode 1).phaseRestricted = true ∧ ∃ t, Reaches 1 (plain.setMode 1) t :=
  ⟨by decide, _, _, rfl, rfl⟩

theorem witness_PhaseRestrictedRunEndsAtProgramEnd :
    (plain.setMode 1).phaseRestricted = true ∧ (plain.setMode 1).nextPc.toNat % 4 = 0 ∧
    (plain.setMode 1).imem.length < 2 ^ 30 ∧ (plain.setMode 1).nextPc.toNat ≤ 4 * (plain.setMode 1).imem.length ∧
    (∀ (j : Nat) (w : Word), (plain.setMode 1).nextPc.toNat / 4 ≤ j → (plain.setMode 1).imem[j]? = some w →
      (decodeFields w).opcode ∈ supportedOpcodes) := by
  refine ⟨by decide, by decide, by decide, by decide, fun j w _ h => ?_⟩
  have hw : w ∈ [(0x00221820 : Word)] := List.mem_of_getElem? h
  rw [List.mem_singleton.1 hw]
  decide

theorem witness_StraightLineRunCompletesOneCyclePerWord :
    plain.phaseRestricted = false ∧ plain.nextPc = 0 ∧ plain.imem.length < 2 ^ 30 ∧
    ∀ w ∈ plain.imem, (decodeFields w).opcode = 0 ∨ (decodeFields w).opcode = 8 :=
  ⟨by decide, by decide, by decide, fun w h => by
    have hw : w ∈ [(0x00221820 : Word)] := h
    rw [List.mem_singleton.1 hw]; decide⟩

theorem witness_BudgetedRunEnds : (1 : Nat) ≠ 0 ∧ (run 1 2 plain).map (·.1) = some (.done 1 .budgetSpent) := by decide

theorem witness_RunHasOneOutcome :
    (run 0 2 plain).map (·.1) = some (.done 1 .programEnd) ∧ (run 0 3 plain).map (·.1) = some (.done 1 .programEnd) := by
  decide

theorem witness_StoppedRunLeavesTheCommit :
    faultOf (step (plain.stagePc 4)) = some .programEnd ∧
    faultOf (step (plain.stagePc 2)) = some (.model (.misalignedFetch 2)) ∧
    faultOf (step (prep [0xFC000000] 0 [])) = some (.control (.unsupportedOpcode 0 0xFC000000 63)) := by decide

theorem witness_BudgetedRunsResume :
    (run 1 2 (prep [0x20010005, 0x20220001] 0 [])).map (·.1) = some (.done 1 .budgetSpent) ∧
    ((run 1 2 (prep [0x20010005, 0x20220001] 0 [])).bind fun r => run 1 2 r.2).map (·.1) =
      some (.done 1 .budgetSpent) := by decide

end Sys2Proof.Tests
end

section
/-! SUPPORT. What an instruction that completes has done, said once for all eleven: `CycleEffect` names the five things a
cycle can do, and `exec_effect` says that it does one of them. -/

namespace Sys2Proof.Machine

/-- What a completed cycle of an instruction makes of the state. -/
inductive CycleEffect (s : State) : Instr → State → Prop where
  /-- The phase restriction of step 7 (R138). -/
  | restricted {i : Instr} (hp : s.phaseRestricted = true) : CycleEffect s i (s.stagePc (pcPlus4 s.pc))
  /-- An R-format instruction, `addi` or `lw`: a register write and PC+4 (R142, R143). -/
  | write {i : Instr} {r : RegIdx} (v : Word) (hp : s.phaseRestricted = false) (hr : destReg i = some r) :
      CycleEffect s i ((s.stageReg r v).stagePc (pcPlus4 s.pc))
  /-- `sw` at an address that exists (R182). -/
  | store (rt rs : RegIdx) (imm : Imm16) (hp : s.phaseRestricted = false)
      (hx : dmemExists s.params (s.readReg rs + sext imm) = true) :
      CycleEffect s (.sw rt rs imm)
        ({ s with dmem := s.dmem.writeWord (s.readReg rs + sext imm) (s.readReg rt) }.stagePc (pcPlus4 s.pc))
  /-- `beq`, taken or not (R200). -/
  | branch (rs rt : RegIdx) (off : Imm16) (taken : Bool) (hp : s.phaseRestricted = false) :
      CycleEffect s (.beq rs rt off)
        (s.stagePc (if taken then branchAddr (pcPlus4 s.pc) (sext off) else pcPlus4 s.pc))
  /-- `j` (R201). -/
  | jump (idx : Target) (hp : s.phaseRestricted = false) :
      CycleEffect s (.j idx) (s.stagePc (jumpAddr (pcPlus4 s.pc) (encode (.j idx))))

/-! ### The control rows -/

/-- Under opcode 0 the ALU control ROM gives one of the five codes of the arithmetic unit (R96, R110). -/
theorem aluControl_rtype_code (funct : Funct) :
    ∃ code, aluControl 2 funct = .ok code ∧ (code = 0 ∨ code = 1 ∨ code = 2 ∨ code = 6 ∨ code = 7) := by
  revert funct; decide

/-- The arithmetic unit has a result for each of its five codes (R110). -/
theorem aluResult_of_code (a b : Word) {code : AluCode}
    (h : code = 0 ∨ code = 1 ∨ code = 2 ∨ code = 6 ∨ code = 7) : ∃ r, aluResult a b code = some r := by
  rcases h with rfl | rfl | rfl | rfl | rfl <;> exact ⟨_, rfl⟩

/-- Both control ROMs have a row for the word of every instruction (R79). -/
theorem controlRow (i : Instr) : Laws.ControlRow.Statement i := by
  cases i with
  | add => exact Laws.ControlRow.add ..
  | sub => exact Laws.ControlRow.sub ..
  | and => exact Laws.ControlRow.and ..
  | or => exact Laws.ControlRow.or ..
  | slt => exact Laws.ControlRow.slt ..
  | rFallback => exact Laws.ControlRow.rFallback ..
  | addi => exact Laws.ControlRow.addi ..
  | lw => exact Laws.ControlRow.lw ..
  | sw => exact Laws.ControlRow.sw ..
  | beq => exact Laws.ControlRow.beq ..
  | j => exact Laws.ControlRow.j ..

/-! ### The cycle of each instruction -/

/-- In a phase-restricted cycle every instruction stages PC+4 and does nothing else (R138). -/
theorem exec_restricted (i : Instr) {s : State} (hp : s.phaseRestricted = true) :
    exec i s = .next (s.stagePc (pcPlus4 s.pc)) := by
  obtain ⟨ctl, code, hctl, hcode⟩ := controlRow i
  rw [exec_eq_datapath]
  exact datapath_restricted _ _ _ (frontSignals_of _ _ ctl code hctl hcode) hp

/-- An R-format word, whatever its function code, stages a value into `rd` (R166). -/
theorem datapath_encodeR (rd rs rt : RegIdx) (shamt : Shamt) (funct : Funct) {s : State}
    (hp : s.phaseRestricted = false) :
    ∃ v, datapath (encodeR rs rt rd shamt funct) s = .next ((s.stageReg rd v).stagePc (pcPlus4 s.pc)) := by
  obtain ⟨code, hcode, hmem⟩ := aluControl_rtype_code funct
  obtain ⟨v, hv⟩ := aluResult_of_code (s.readReg rs) (s.readReg rt) hmem
  have h := datapath_rtype (encodeR rs rt rd shamt funct) s code v hp (encodeR_opcode ..)
    (by rwa [encodeR_funct]) (by rwa [encodeR_rs, encodeR_rt])
  rw [encodeR_rd] at h
  exact ⟨v, h⟩

/-- The effect of a cycle whose outcome is known to stage a register write. -/
theorem CycleEffect.of_write {i : Instr} {s t : State} {r : RegIdx} (hp : s.phaseRestricted = false)
    (hr : destReg i = some r) (hd : ∃ v, exec i s = .next ((s.stageReg r v).stagePc (pcPlus4 s.pc)))
    (h : exec i s = .next t) : CycleEffect s i t := by
  obtain ⟨v, hd⟩ := hd
  cases hd.symm.trans h
  exact .write v hp hr

theorem exec_lw_effect (rt rs : RegIdx) (imm : Imm16) {s t : State} (hp : s.phaseRestricted = false)
    (h : exec (.lw rt rs imm) s = .next t) : CycleEffect s (.lw rt rs imm) t := by
  rw [exec_eq_datapath, encode, datapath_lw _ s hp (encodeI_opcode ..)] at h
  simp only [encodeI_rs, encodeI_rt, encodeI_imm] at h
  split at h
  · cases h
  · cases h
    exact .write _ hp rfl

theorem exec_sw_effect (rt rs : RegIdx) (imm : Imm16) {s t : State} (hp : s.phaseRestricted = false)
    (h : exec (.sw rt rs imm) s = .next t) : CycleEffect s (.sw rt rs imm) t := by
  rw [exec_eq_datapath, encode, datapath_sw _ s hp (encodeI_opcode ..)] at h
  simp only [encodeI_rs, encodeI_rt, encodeI_imm] at h
  split at h
  · cases h
  · next hd =>
    cases h
    exact .store rt rs imm hp ((dataFault_none_iff _ _).1 hd)

theorem exec_beq_effect (rs rt : RegIdx) (off : Imm16) {s t : State} (hp : s.phaseRestricted = false)
    (h : exec (.beq rs rt off) s = .next t) : CycleEffect s (.beq rs rt off) t := by
  rw [exec_eq_datapath, encode, datapath_beq _ s hp (encodeI_opcode ..)] at h
  simp only [encodeI_imm] at h
  cases h
  exact .branch rs rt off _ hp

theorem exec_j_effect (idx : Target) {s t : State} (hp : s.phaseRestricted = false)
    (h : exec (.j idx) s = .next t) : CycleEffect s (.j idx) t := by
  rw [exec_eq_datapath, encode, datapath_j _ s hp (encodeJ_opcode ..)] at h
  cases h
  exact .jump idx hp

/-- Everything an instruction that completes can do. -/
theorem exec_effect {i : Instr} {s t : State} (h : exec i s = .next t) : CycleEffect s i t := by
  cases hp : s.phaseRestricted with
  | true =>
    cases (exec_restricted i hp).symm.trans h
    exact .restricted hp
  | false =>
    cases i with
    | add rd rs rt sh => exact .of_write hp rfl (datapath_encodeR rd rs rt sh 32 hp) h
    | sub rd rs rt sh => exact .of_write hp rfl (datapath_encodeR rd rs rt sh 34 hp) h
    | and rd rs rt sh => exact .of_write hp rfl (datapath_encodeR rd rs rt sh 36 hp) h
    | or rd rs rt sh => exact .of_write hp rfl (datapath_encodeR rd rs rt sh 37 hp) h
    | slt rd rs rt sh => exact .of_write hp rfl (datapath_encodeR rd rs rt sh 42 hp) h
    | rFallback rd rs rt sh funct => exact .of_write hp rfl (datapath_encodeR rd rs rt sh funct hp) h
    | addi rt rs imm =>
      have hd := datapath_addi (encodeI 8 rs rt imm) s hp (encodeI_opcode ..)
      rw [encodeI_rt] at hd
      exact .of_write hp rfl ⟨_, hd⟩ h
    | lw rt rs imm => exact exec_lw_effect rt rs imm hp h
    | sw rt rs imm => exact exec_sw_effect rt rs imm hp h
    | beq rs rt off => exact exec_beq_effect rs rt off hp h
    | j idx => exact exec_j_effect idx hp h

end Sys2Proof.Machine
end

section
/-! SUPPORT. Every next PC is a multiple of 4, and what each update of the state does to the invariant. -/

namespace Sys2Proof.Machine

/-! ### The addresses a cycle can stage -/

theorem aligned_pcPlus4 {pc : Word} (h : aligned pc = true) : aligned (pcPlus4 pc) = true := by
  rw [aligned_iff] at h ⊢
  simp only [pcPlus4, BitVec.toNat_add, BitVec.reduceToNat]
  omega

theorem aligned_branchAddr {pc4 : Word} (x : Word) (h : aligned pc4 = true) : aligned (branchAddr pc4 x) = true := by
  rw [aligned_iff] at h ⊢
  simp only [branchAddr, BitVec.toNat_add, BitVec.toNat_shiftLeft, Nat.shiftLeft_eq]
  omega

/-- The jump address ends in two zeros whatever the PC is: the mask clears them and the shift brings them in (R103). -/
theorem aligned_jumpAddr (pc4 instr : Word) : aligned (jumpAddr pc4 instr) = true := by
  simp only [aligned, beq_iff_eq]
  ext k hk
  have hk' : k = 0 ∨ k = 1 := by omega
  rcases hk' with rfl | rfl <;> simp [jumpAddr]

/-! ### The invariant -/

theorem State.Inv.commit {s : State} (h : s.Inv) : s.commit.Inv := by
  obtain ⟨hm, hpc, hpend⟩ := h
  refine ⟨hm, ?_, fun t ht => by cases ht⟩
  rw [State.commit_pc, State.nextPc]
  cases hp : s.pendPc with
  | none => exact hpc
  | some target => exact hpend target hp

theorem State.Inv.stagePc {s : State} {target : Word} (h : s.Inv) (ht : aligned target = true) :
    (s.stagePc target).Inv := by
  obtain ⟨hm, hpc, -⟩ := h
  exact ⟨hm, hpc, fun t hs => by cases hs; exact ht⟩

theorem State.Inv.stageReg {s : State} (i : RegIdx) (v : Word) (h : s.Inv) : (s.stageReg i v).Inv := h

theorem State.Inv.countCycle {s : State} (h : s.Inv) : s.countCycle.Inv := h

theorem State.Inv.withDmem {s : State} {m : Memory} (h : s.Inv) (hm : m.wf) : State.Inv { s with dmem := m } :=
  ⟨hm, h.2⟩

/-- Whatever a completed cycle does keeps the invariant. -/
theorem CycleEffect.inv {i : Instr} {s t : State} (h : CycleEffect s i t) (hs : s.Inv) : t.Inv := by
  have ⟨hm, hpc, _⟩ := hs
  have hpc4 := aligned_pcPlus4 hpc
  cases h with
  | restricted => exact hs.stagePc hpc4
  | write v => exact (hs.stageReg _ v).stagePc hpc4
  | store rt rs imm _ hx =>
    have ha := dmemExists_aligned _ _ hx
    exact (hs.withDmem (Memory.wf_writeWord _ _ _ (aligned_top _ ha) hm)).stagePc hpc4
  | branch rs rt off taken =>
    refine hs.stagePc ?_
    split
    · exact aligned_branchAddr _ hpc4
    · exact hpc4
  | jump idx => exact hs.stagePc (aligned_jumpAddr _ _)

end Sys2Proof.Machine
end

section
open Sys2Proof Sys2Proof.Machine

/-- Settles O43: the commit keeps the invariant, and so does each of the five effects of a cycle. -/
theorem stepKeepsInv : Obligations.StepKeepsInv := by
  intro s t hs h
  obtain ⟨w, i, u, -, -, hu, rfl⟩ := step_next s t h
  exact ((exec_effect hu).inv hs.commit).countCycle

/-- Settles O18, by the effect of the cycle. -/
theorem everyCompletedCycleStagesThePc : Obligations.EveryCompletedCycleStagesThePc := by
  intro i s t h
  cases exec_effect h with
  | restricted hp => exact ⟨fun _ => rfl, fun hn => by simp [hp] at hn⟩
  | write v hp => exact ⟨fun hn => by simp [hp] at hn, fun _ => .inl rfl⟩
  | store rt rs imm hp => exact ⟨fun hn => by simp [hp] at hn, fun _ => .inl rfl⟩
  | branch rs rt off taken hp =>
    refine ⟨fun hn => by simp [hp] at hn, fun _ => ?_⟩
    cases taken with
    | false => exact .inl rfl
    | true => exact .inr (.inl ⟨rs, rt, off, rfl, rfl⟩)
  | jump idx hp => exact ⟨fun hn => by simp [hp] at hn, fun _ => .inr (.inr ⟨idx, rfl, rfl⟩)⟩

/-- Settles O31, by the effect of the cycle. -/
theorem registerWritesGoToTheDestination : Obligations.RegisterWritesGoToTheDestination := by
  intro i s t h
  cases exec_effect h with
  | restricted hp => exact ⟨fun _ => rfl, fun hn => by simp [hp] at hn⟩
  | write v hp hr =>
    refine ⟨fun hn => by simp [hp] at hn, fun _ => ⟨fun r hr' => ⟨v, ?_⟩, fun hn => by simp [hr] at hn⟩⟩
    cases hr.symm.trans hr'
    rfl
  | store | branch | jump => exact ⟨fun _ => rfl, fun _ => ⟨nofun, fun _ => rfl⟩⟩

end

section
/-! SUPPORT. The mode is read in one place, by the phase restriction of step 7: a change of it passes through every unit
of the cycle. -/

namespace Sys2Proof.Machine

/-- An outcome with a change made to its next state. -/
def mapNext (g : State → State) : Outcome → Outcome
  | .next t => .next (g t)
  | .fault f => .fault f
  | .refused r => .refused r

@[simp] theorem State.commit_setMode (s : State) (mode : Nat) : (s.setMode mode).commit = s.commit.setMode mode := rfl

@[simp] theorem State.fetch_setMode (s : State) (mode : Nat) : (s.setMode mode).fetch = s.fetch := rfl

@[simp] theorem backSignals_setMode (f : FrontSignals) (s : State) (mode : Nat) :
    backSignals f (s.setMode mode) = backSignals f s := rfl

theorem State.phaseRestricted_setMode {s : State} {mode : Nat} (h : mode.testBit 0 = s.mode.testBit 0) :
    (s.setMode mode).phaseRestricted = s.phaseRestricted := h

theorem datapath_setMode (w : Word) {s : State} {mode : Nat} (h : mode.testBit 0 = s.mode.testBit 0) :
    datapath w (s.setMode mode) = mapNext (·.setMode mode) (datapath w s) := by
  simp only [datapath, State.setMode_pc, State.phaseRestricted_setMode h, backSignals_setMode]
  cases frontSignals w s.pc with
  | error e => rfl
  | ok f =>
    dsimp only
    cases s.phaseRestricted with
    | true => rfl
    | false => cases backSignals f s <;> rfl

theorem stepCommitted_setMode {s : State} {mode : Nat} (h : mode.testBit 0 = s.mode.testBit 0) :
    stepCommitted (s.setMode mode) = mapNext (·.setMode mode) (stepCommitted s) := by
  simp only [stepCommitted, State.fetch_setMode, exec_eq_datapath, datapath_setMode _ h]
  cases s.fetch with
  | error f => rfl
  | ok w =>
    dsimp only
    cases decode w with
    | error k => rfl
    | ok i =>
      dsimp only
      cases datapath (encode i) s <;> rfl

end Sys2Proof.Machine
end

section
open Sys2Proof Sys2Proof.Machine

/-- Settles O42: the commit carries the mode along, and the rest of the cycle sees its bit 0 only. -/
theorem onlyModeBitZeroMatters : Obligations.OnlyModeBitZeroMatters := by
  intro s mode h
  have hstep : step (s.setMode mode) = mapNext (·.setMode mode) (step s) := by
    simp only [step, State.commit_setMode]
    exact stepCommitted_setMode h
  rw [hstep]
  cases step s <;> rfl

/-- Settles O14: each unit by its table. -/
theorem multiplexersAndBranchDecision : Obligations.MultiplexersAndBranchDecision := by
  refine ⟨fun _ _ => ⟨rfl, rfl⟩, fun _ _ => ⟨rfl, rfl⟩, fun _ _ => ⟨rfl, rfl⟩, fun _ _ _ => ⟨rfl, rfl⟩,
    fun _ _ _ _ => ⟨rfl, rfl, rfl⟩, fun b z => ?_, fun _ => ⟨rfl, rfl⟩⟩
  exact Bool.and_eq_true_iff

end

section
/-! SUPPORT. The register file and the PC across the clock edge of step 1. -/

namespace Sys2Proof.Machine

/-! ### What the commit moves in -/

theorem State.nextPc_of_some {s : State} {target : Word} (h : s.pendPc = some target) : s.nextPc = target := by
  simp [State.nextPc, h]

theorem State.nextPc_of_none {s : State} (h : s.pendPc = none) : s.nextPc = s.pc := by
  simp [State.nextPc, h]

theorem State.committedRegs_of_none {s : State} (h : s.pendReg = none) : s.committedRegs = s.regs := by
  simp [State.committedRegs, h]

/-- A pending write to a hardwired register 0 is discarded (R23). -/
theorem State.committedRegs_of_hardwired {s : State} {i : RegIdx} {v : Word} (h : s.pendReg = some (i, v))
    (hw : s.params.r0Hardwired = true ∧ i = 0) : s.committedRegs = s.regs := by
  simp [State.committedRegs, h, hw]

theorem State.committedRegs_of_ordinary {s : State} {i : RegIdx} {v : Word} (h : s.pendReg = some (i, v))
    (hw : ¬ (s.params.r0Hardwired = true ∧ i = 0)) : s.committedRegs = s.regs.set i.toNat v i.isLt := by
  simp only [State.committedRegs, h]
  rw [if_neg (by simpa using hw)]

/-! ### Reads after the commit of a staged write -/

/-- The register just written holds the value staged, unless it is a hardwired register 0. -/
theorem State.readReg_commit_stageReg_same (s : State) (i : RegIdx) (v : Word) :
    (s.stageReg i v).commit.readReg i = if s.params.r0Hardwired && i == 0 then 0 else v := by
  by_cases hw : s.params.r0Hardwired = true ∧ i = 0
  · obtain ⟨hw, rfl⟩ := hw
    rw [State.readReg_zero_of_hardwired (s.stageReg 0 v).commit hw, if_pos (by simp [hw])]
  · rw [State.readReg_of_ordinary (s.stageReg i v).commit i hw, if_neg (by simpa using hw)]
    simp [State.committedRegs_of_ordinary (s := s.stageReg i v) rfl hw]

/-- Every other register reads as before. -/
theorem State.readReg_commit_stageReg_ne (s : State) {i j : RegIdx} (v : Word) (hne : j ≠ i) :
    (s.stageReg j v).commit.readReg i = s.readReg i := by
  by_cases hw : s.params.r0Hardwired = true ∧ j = 0
  · exact State.readReg_congr _ _ _ (State.committedRegs_of_hardwired (s := s.stageReg j v) rfl hw) rfl
  · have hidx : j.toNat ≠ i.toNat := fun e => hne (BitVec.eq_of_toNat_eq e)
    simp [State.readReg, State.committedRegs_of_ordinary (s := s.stageReg j v) rfl hw, hidx]

end Sys2Proof.Machine
end

section
open Sys2Proof Sys2Proof.Machine

/-- Settles O15, by the reads before and after the commit. -/
theorem registerReadPort : Obligations.RegisterReadPort := by
  refine fun s i => ⟨fun hw hi => ?_, s.readReg_of_ordinary i, fun j v => ?_, s.readReg_commit_stageReg_same i,
    fun j v hne => s.readReg_commit_stageReg_ne v hne⟩
  · rw [hi, s.readReg_zero_of_hardwired hw]
  · exact State.readReg_congr _ _ _ rfl rfl

/-- Settles O16, field by field. -/
theorem commitIsTheClockEdge : Obligations.CommitIsTheClockEdge := by
  intro s
  refine ⟨rfl, rfl, fun _ => State.nextPc_of_some, State.nextPc_of_none, fun i v h hw hi => ?_, fun i v h hw => ?_,
    State.committedRegs_of_none, rfl, rfl, rfl, rfl, rfl⟩
  · exact State.committedRegs_of_hardwired h ⟨hw, hi⟩
  · exact State.committedRegs_of_ordinary h hw

end

section
/-! SUPPORT. The data memory a cycle leaves, and what an access answers at an address that does not exist. -/

namespace Sys2Proof.Machine

/-! ### Accesses at addresses that do not exist -/

/-- The first check of an access: a misaligned address (R56, R57, D8). -/
theorem dataFault_of_misaligned (p : Params) {addr : Word} (h : addr.toNat % 4 ≠ 0) :
    dataFault p addr = some (.misalignedData addr) := by
  rw [dataFault, if_neg (mt (aligned_iff addr).1 h)]

/-- The second check: an aligned address outside DMEM_VALID (R56, R57, D9). -/
theorem dataFault_of_absent (p : Params) {addr : Word} (ha : addr.toNat % 4 = 0) (hx : dmemExists p addr = false) :
    dataFault p addr = some (.dataOutOfRange addr) := by
  rw [dataFault, if_pos ((aligned_iff addr).2 ha), if_neg (Bool.eq_false_iff.1 hx)]

theorem memRead_of_dataFault {p : Params} {addr : Word} {f : ModelFault} (m : Memory)
    (h : dataFault p addr = some f) : memRead p m addr = .error f := by
  simp only [memRead, h]

theorem memWrite_of_dataFault {p : Params} {addr : Word} {f : ModelFault} (m : Memory) (v : Word)
    (h : dataFault p addr = some f) : memWrite p m addr v = .error f := by
  simp only [memWrite, h]

/-! ### A word stored at an address that exists -/

section Store
variable {p : Params} {m : Memory} {addr : Word} (v : Word) (hm : m.wf) (hx : dmemExists p addr = true)
include hm hx

theorem Memory.wf_writeWord_of_exists : (m.writeWord addr v).wf :=
  Memory.wf_writeWord m addr v (aligned_top _ (dmemExists_aligned _ _ hx)) hm

theorem Memory.readWord_writeWord_of_exists : (m.writeWord addr v).readWord addr = v :=
  Memory.readWord_writeWord_same m addr v (aligned_top _ (dmemExists_aligned _ _ hx)) hm

/-- A store leaves every byte outside its word as it was. -/
theorem Memory.readByte_writeWord_outside {a : Nat} (ha : ¬ inWord addr a) :
    (m.writeWord addr v).readByte a = m.readByte a := by
  rw [Memory.readByte_writeWord m addr v a (aligned_top _ (dmemExists_aligned _ _ hx)) hm]
  exact if_neg ha

/-- A store leaves the word at every other existing address as it was. -/
theorem Memory.readWord_writeWord_of_ne {b : Word} (hb : dmemExists p b = true) (hne : b ≠ addr) :
    (m.writeWord addr v).readWord b = m.readWord b := by
  have ha := dmemExists_aligned _ _ hx
  exact Memory.readWord_writeWord_apart m addr v b (aligned_top _ ha) hm
    (aligned_apart addr b ha (dmemExists_aligned _ _ hb) hne)

end Store

/-! ### The data memory after a cycle -/

/-- An instruction with a destination register stores nothing. -/
theorem storeAddr_of_destReg (s : State) {i : Instr} {r : RegIdx} (h : destReg i = some r) : storeAddr s i = none := by
  cases i with
  | sw => cases h
  | _ => rfl

/-- A completed cycle leaves the data memory alone, in phase-restricted mode or where its instruction stores nothing, or
has stored x[rt] at the existing address of an `sw` (R57, R59, R138). -/
theorem CycleEffect.dmem_cases {i : Instr} {s t : State} (h : CycleEffect s i t) :
    (t.dmem = s.dmem ∧ (s.phaseRestricted = true ∨ storeAddr s i = none)) ∨
    (s.phaseRestricted = false ∧ ∃ rt rs imm addr, i = .sw rt rs imm ∧ storeAddr s i = some addr ∧
      dmemExists s.params addr = true ∧ t.dmem = s.dmem.writeWord addr (s.readReg rt)) := by
  cases h with
  | restricted hp => exact .inl ⟨rfl, .inl hp⟩
  | write v hp hr => exact .inl ⟨rfl, .inr (storeAddr_of_destReg s hr)⟩
  | store rt rs imm hp hx => exact .inr ⟨hp, rt, rs, imm, _, rfl, rfl, hx, rfl⟩
  | branch | jump => exact .inl ⟨rfl, .inr rfl⟩

end Sys2Proof.Machine
end

section
open Sys2Proof Sys2Proof.Machine

/-- Settles O32, by what a cycle can do to the data memory. -/
theorem dataMemoryFrame : Obligations.DataMemoryFrame := by
  intro i s t hm h
  obtain ⟨-, -, himem, hmode, hcycles, hparams⟩ := datapath_frame _ _ _ ((exec_eq_datapath i s).symm.trans h)
  refine ⟨⟨himem, hmode, hcycles, hparams⟩, ?_⟩
  rcases (exec_effect h).dmem_cases with ⟨hd, hno⟩ | ⟨hp, rt, rs, imm, addr, rfl, haddr, hx, hd⟩
  · refine ⟨fun _ _ => by rw [hd], fun _ _ => by rw [hd], fun _ _ _ _ => by rw [hd],
      fun rt rs imm addr _ haddr hp => ?_⟩
    rcases hno with hr | hn
    · simp [hp] at hr
    · simp [hn] at haddr
  · refine ⟨fun hr => by simp [hp] at hr, fun hn => by simp [hn] at haddr, fun addr' haddr' a ha => ?_,
      fun rt' rs' imm' addr' hi haddr' _ => ?_⟩
    · cases haddr.symm.trans haddr'
      rw [hd, Memory.readByte_writeWord_outside _ hm hx ha]
    · cases hi
      cases haddr.symm.trans haddr'
      rw [hd, Memory.readWord_writeWord_of_exists _ hm hx]

/-- Settles O33: the two checks of an access, and a store read back at its own address and at the others. -/
theorem dataMemoryIsAMapOfWords : Obligations.DataMemoryIsAMapOfWords := by
  intro p m a v hm
  refine ⟨fun ha => ?_, fun ha hx => ?_, fun hx => ?_⟩
  · have hf := dataFault_of_misaligned p ha
    exact ⟨memRead_of_dataFault m hf, memWrite_of_dataFault m v hf⟩
  · have hf := dataFault_of_absent p ha hx
    exact ⟨memRead_of_dataFault m hf, memWrite_of_dataFault m v hf⟩
  · refine ⟨memRead_of_exists p m a hx, m.writeWord a v, memWrite_of_exists p m a v hx,
      Memory.wf_writeWord_of_exists v hm hx, fun b hb => ?_⟩
    rw [memRead_of_exists p _ b hb]
    split
    · next he => rw [he, Memory.readWord_writeWord_of_exists v hm hx]
    · next hne => rw [Memory.readWord_writeWord_of_ne v hm hx hb hne, memRead_of_exists p m b hb]

/-- Settles O40, by the frame of a step. -/
theorem stepKeepsImageModeAndParameters : Obligations.StepKeepsImageModeAndParameters := by
  intro s t h
  obtain ⟨himem, hmode, hparams, -, -, hcycles⟩ := step_frame s t h
  exact ⟨himem, hmode, hparams, hcycles⟩

/-- Settles O41: the commit leaves the data memory alone, and a store goes to an address that exists. -/
theorem stepStoresOnlyWhereDataExists : Obligations.StepStoresOnlyWhereDataExists := by
  intro s t hm h a ha
  obtain ⟨w, i, u, -, -, hu, rfl⟩ := step_next s t h
  rw [State.countCycle_dmem]
  rcases (exec_effect hu).dmem_cases with ⟨hd, -⟩ | ⟨-, rt, rs, imm, addr, -, -, hx, hd⟩
  · rw [hd, State.commit_dmem]
  · rw [hd, State.commit_dmem, Memory.readByte_writeWord_outside _ hm hx (ha addr hx)]

end

section
/-! SUPPORT. The fields of a word as numbers and under a mask, and the decoder by opcode and function code. -/

namespace Sys2Proof

/-! ### Fields as numbers and under a mask -/

theorem toNat_extract {m : Nat} (x : BitVec m) (k len : Nat) :
    (x.extractLsb' k len).toNat = x.toNat / 2 ^ k % 2 ^ len := by
  rw [BitVec.extractLsb'_toNat, Nat.shiftRight_eq_div_pow]

/-- A mask that keeps every bit of a field leaves the field as it was. -/
theorem extract_of_mask {m k len : Nat} {x mask y : BitVec m} (h : x &&& mask = y)
    (hmask : mask.extractLsb' k len = BitVec.allOnes len) : x.extractLsb' k len = y.extractLsb' k len := by
  rw [← h, BitVec.extractLsb'_and, hmask, BitVec.and_allOnes]

variable {w : Word}

/-- The mask of the I-format and J-format rows keeps the opcode (R76). -/
theorem opcode_of_opcodeMask {m : Word} (h : w &&& 0xFC000000 = m) :
    (decodeFields w).opcode = (decodeFields m).opcode :=
  extract_of_mask h (by decide)

/-- The mask of the R-format rows keeps the opcode and the function code (R77). -/
theorem opcode_funct_of_functMask {m : Word} (h : w &&& 0xFC00003F = m) :
    (decodeFields w).opcode = (decodeFields m).opcode ∧ (decodeFields w).funct = (decodeFields m).funct :=
  ⟨extract_of_mask h (by decide), extract_of_mask h (by decide)⟩

/-! ### The decoder, by opcode (R76, R78) -/

theorem decode_rtype (h : (decodeFields w).opcode = 0) : decode w = .ok (decodeRType w) := by
  simp [decode, h]

theorem decode_j (h : (decodeFields w).opcode = 2) : decode w = .ok (.j (targetOf w)) := by
  simp [decode, h]

theorem decode_beq (h : (decodeFields w).opcode = 4) :
    decode w = .ok (.beq (decodeFields w).rs (decodeFields w).rt (decodeFields w).imm) := by
  simp [decode, h]

theorem decode_addi (h : (decodeFields w).opcode = 8) :
    decode w = .ok (.addi (decodeFields w).rt (decodeFields w).rs (decodeFields w).imm) := by
  simp [decode, h]

theorem decode_lw (h : (decodeFields w).opcode = 35) :
    decode w = .ok (.lw (decodeFields w).rt (decodeFields w).rs (decodeFields w).imm) := by
  simp [decode, h]

theorem decode_sw (h : (decodeFields w).opcode = 43) :
    decode w = .ok (.sw (decodeFields w).rt (decodeFields w).rs (decodeFields w).imm) := by
  simp [decode, h]

theorem decode_of_supported (h : (decodeFields w).opcode ∈ Machine.supportedOpcodes) : ∃ i, decode w = .ok i := by
  simp only [Machine.supportedOpcodes, List.mem_cons, List.not_mem_nil, or_false] at h
  rcases h with h | h | h | h | h | h
  · exact ⟨_, decode_rtype h⟩
  · exact ⟨_, decode_j h⟩
  · exact ⟨_, decode_beq h⟩
  · exact ⟨_, decode_addi h⟩
  · exact ⟨_, decode_lw h⟩
  · exact ⟨_, decode_sw h⟩

theorem decode_of_unsupported (h : (decodeFields w).opcode ∉ Machine.supportedOpcodes) :
    decode w = .error .unsupportedOpcode := by
  simp only [Machine.supportedOpcodes, List.mem_cons, List.not_mem_nil, or_false, not_or] at h
  simp only [decode, h, if_false]

/-! ### An opcode-0 word, by function code (R77) -/

theorem decodeRType_add (h : (decodeFields w).funct = 32) :
    decodeRType w = .add (decodeFields w).rd (decodeFields w).rs (decodeFields w).rt (shamtOf w) := by
  simp [decodeRType, h]

theorem decodeRType_sub (h : (decodeFields w).funct = 34) :
    decodeRType w = .sub (decodeFields w).rd (decodeFields w).rs (decodeFields w).rt (shamtOf w) := by
  simp [decodeRType, h]

theorem decodeRType_and (h : (decodeFields w).funct = 36) :
    decodeRType w = .and (decodeFields w).rd (decodeFields w).rs (decodeFields w).rt (shamtOf w) := by
  simp [decodeRType, h]

theorem decodeRType_or (h : (decodeFields w).funct = 37) :
    decodeRType w = .or (decodeFields w).rd (decodeFields w).rs (decodeFields w).rt (shamtOf w) := by
  simp [decodeRType, h]

theorem decodeRType_slt (h : (decodeFields w).funct = 42) :
    decodeRType w = .slt (decodeFields w).rd (decodeFields w).rs (decodeFields w).rt (shamtOf w) := by
  simp [decodeRType, h]

theorem decodeRType_fallback (h : (decodeFields w).funct ∉ namedFuncts) :
    decodeRType w = .rFallback (decodeFields w).rd (decodeFields w).rs (decodeFields w).rt (shamtOf w)
      (decodeFields w).funct := by
  simp only [namedFuncts, List.mem_cons, List.not_mem_nil, or_false, not_or] at h
  simp only [decodeRType, h, if_false]

/-- A word that meets an R-format row's match and mask decodes by the row's function code. -/
theorem decode_of_functMask {m : Word} {i : Instr} (h : w &&& 0xFC00003F = m) (hop : (decodeFields m).opcode = 0)
    (hi : (decodeFields w).funct = (decodeFields m).funct → decodeRType w = i) : decode w = .ok i := by
  obtain ⟨hopcode, hfunct⟩ := opcode_funct_of_functMask h
  rw [decode_rtype (hopcode.trans hop), hi hfunct]

end Sys2Proof
end

section
/-! SUPPORT. What a step answers: an equation for each way the fetch and the decoder can go, and the two outcomes an
instruction can have. -/

namespace Sys2Proof.Machine

variable {s : State}

theorem State.fetch_of_getElem? {w : Word} (ha : s.pc.toNat % 4 = 0) (hw : s.imem[s.pc.toNat / 4]? = some w) :
    s.fetch = .ok w := by
  obtain ⟨hlt, -⟩ := List.getElem?_eq_some_iff.1 hw
  rcases s.fetch_cases with ⟨hx, -⟩ | ⟨-, hna, -⟩ | ⟨-, -, w', hw', hf⟩
  · have := (s.exhausted_iff).1 hx
    omega
  · simp [(aligned_iff _).2 ha] at hna
  · cases hw.symm.trans hw'
    exact hf

theorem step_of_fetch_error {f : Fault} (h : s.commit.fetch = .error f) : step s = .fault f := by
  simp [step, stepCommitted, h]

theorem step_of_decode_error {w : Word} {k : ControlErrorKind} (hf : s.commit.fetch = .ok w)
    (hd : decode w = .error k) :
    step s = .fault (.control (.unsupportedOpcode s.nextPc w (decodeFields w).opcode)) := by
  simp [step, stepCommitted, hf, hd, abort]

theorem step_of_decode_ok {w : Word} {i : Instr} (hf : s.commit.fetch = .ok w) (hd : decode w = .ok i) :
    step s = mapNext State.countCycle (exec i s.commit) := by
  simp only [step, stepCommitted, hf, hd]
  cases exec i s.commit <;> rfl

/-- An instruction completes or meets a model fault: both control ROMs have a row for it, so nothing else can stop it. -/
theorem exec_next_or_modelFault (i : Instr) (s : State) :
    (∃ t, exec i s = .next t) ∨ ∃ f, exec i s = .fault (.model f) := by
  obtain ⟨ctl, code, hctl, hcode⟩ := controlRow i
  simp only [exec_eq_datapath, datapath, frontSignals_of _ s.pc ctl code hctl hcode]
  split
  · exact .inl ⟨_, rfl⟩
  · split
    · exact .inr ⟨_, rfl⟩
    · exact .inl ⟨_, rfl⟩

/-- A step whose word decodes completes or meets a model fault. -/
theorem step_next_or_modelFault {w : Word} {i : Instr} (hf : s.commit.fetch = .ok w) (hd : decode w = .ok i) :
    (∃ t, step s = .next t) ∨ ∃ f, step s = .fault (.model f) := by
  rw [step_of_decode_ok hf hd]
  rcases exec_next_or_modelFault i s.commit with ⟨t, ht⟩ | ⟨f, hf⟩
  · exact .inl ⟨t.countCycle, by rw [ht]; rfl⟩
  · exact .inr ⟨f, by rw [hf]; rfl⟩

end Sys2Proof.Machine
end

section
open Sys2Proof Sys2Proof.Machine

/-- Settles O1: the opcode is the word's top field, so it needs no remainder. -/
theorem fieldDecoderTakesTheNamedBits : Obligations.FieldDecoderTakesTheNamedBits := by
  intro w
  have hop : w.toNat / 2 ^ 26 % 2 ^ 6 = w.toNat / 2 ^ 26 := Nat.mod_eq_of_lt (by omega)
  have hlow (len : Nat) : (w.extractLsb' 0 len).toNat = w.toNat % 2 ^ len := by
    rw [toNat_extract, pow_zero, Nat.div_one]
  exact ⟨(toNat_extract w 26 6).trans hop, toNat_extract w 21 5, toNat_extract w 16 5, toNat_extract w 11 5,
    hlow 6, hlow 16⟩

/-- Settles O4: the masks keep the fields that select the row. -/
theorem tableRowsDecodeToTheirInstruction : Obligations.TableRowsDecodeToTheirInstruction := by
  intro w
  exact ⟨fun h => decode_of_functMask h rfl decodeRType_add, fun h => decode_of_functMask h rfl decodeRType_sub,
    fun h => decode_of_functMask h rfl decodeRType_and, fun h => decode_of_functMask h rfl decodeRType_or,
    fun h => decode_of_functMask h rfl decodeRType_slt, fun h => decode_addi (opcode_of_opcodeMask h),
    fun h => decode_lw (opcode_of_opcodeMask h), fun h => decode_sw (opcode_of_opcodeMask h),
    fun h => decode_beq (opcode_of_opcodeMask h), fun h => decode_j (opcode_of_opcodeMask h),
    fun h hf => by rw [decode_rtype (opcode_of_opcodeMask h), decodeRType_fallback hf]⟩

/-- Settles O38: only the decoder raises a control error, and it fails exactly outside the set. -/
theorem unsupportedOpcodeIsRaisedExactlyOutsideTheSet :
    Obligations.UnsupportedOpcodeIsRaisedExactlyOutsideTheSet := by
  intro s w ha hw
  have hf : s.commit.fetch = .ok w := State.fetch_of_getElem? ha hw
  refine ⟨fun hop => step_of_decode_error hf (decode_of_unsupported hop), fun hop e he => ?_⟩
  obtain ⟨i, hi⟩ := decode_of_supported hop
  rcases step_next_or_modelFault hf hi with ⟨t, ht⟩ | ⟨f, ht⟩
  · cases ht.symm.trans he
  · cases ht.symm.trans he

/-- Settles O39: the fetch and the decoder only fault, and an instruction completes or meets a model fault. -/
theorem noStepIsRefused : Obligations.NoStepIsRefused := by
  intro s r h
  cases hf : s.commit.fetch with
  | error f => cases (step_of_fetch_error hf).symm.trans h
  | ok w =>
    cases hd : decode w with
    | error k => cases (step_of_decode_error hf hd).symm.trans h
    | ok i =>
      rcases step_next_or_modelFault hf hd with ⟨t, ht⟩ | ⟨f, ht⟩
      · cases ht.symm.trans h
      · cases ht.symm.trans h

end

section
/-! SUPPORT. What can stop a step: the arithmetic unit answers for every code the ALU control ROM gives, so a cycle whose
word decodes is stopped by the data-memory checks alone. -/

namespace Sys2Proof.Machine

/-- No row of the main control ROM gives ALUOp 3 (R91, R97). -/
theorem mainControl_aluOp_ne {op : Opcode} {ctl : Control} (h : mainControl op = .ok ctl) : ctl.aluOp ≠ 3 := by
  simp only [mainControl] at h
  split_ifs at h <;> cases h <;> simp

/-- No row of the ALU control ROM gives a code outside the arithmetic unit's five (R96, R110). -/
theorem aluControl_code {op : AluOp} {funct : Funct} {code : AluCode} (h : aluControl op funct = .ok code) :
    code = 0 ∨ code = 1 ∨ code = 2 ∨ code = 6 ∨ code = 7 := by
  simp only [aluControl] at h
  split_ifs at h <;> cases h <;> simp

/-- Where there is a result, the unit gives it with its zero flag (R39, R110). -/
theorem alu_of_result {a b r : Word} {code : AluCode} (h : aluResult a b code = some r) :
    alu a b code = .ok (r, zeroFlag r) := by
  simp [alu, h]

/-- The unit faults outside its five codes (R111). -/
theorem alu_error_of_not_mem (a b : Word) {code : AluCode} (h : code ∉ [0, 1, 2, 6, 7]) :
    alu a b code = .error (.unreachableALUCode code) := by
  simp only [List.mem_cons, List.not_mem_nil, or_false, not_or] at h
  simp only [alu, aluResult, h, if_false]

/-- The data-memory checks raise two faults and no other (R56, R57). -/
theorem dataFault_some {p : Params} {addr : Word} {e : ModelFault} (h : dataFault p addr = some e) :
    e = .misalignedData addr ∨ e = .dataOutOfRange addr := by
  simp only [dataFault] at h
  split_ifs at h
  · cases h
    exact .inr rfl
  · cases h
    exact .inl rfl

/-- Only the checks of R56 and R57 stop the data-memory port. -/
theorem dmemPort_error {p : Params} {m : Memory} {address dataIn : Word} {read write : Bool} {e : ModelFault}
    (h : dmemPort p m address dataIn read write = .error e) : dataFault p address = some e := by
  cases hd : dataFault p address with
  | none =>
    have hx := (dataFault_none_iff p address).1 hd
    cases read <;> cases write <;>
      simp [dmemPort, memRead_of_exists _ _ _ hx, memWrite_of_exists _ _ _ _ hx, Except.map] at h
  | some e' =>
    cases read with
    | true => simpa [dmemPort, memRead_of_dataFault m hd, Except.map] using h
    | false =>
      cases write with
      | true => simpa [dmemPort, memWrite_of_dataFault m dataIn hd] using h
      | false => cases (dmemPort_idle p m address dataIn).symm.trans h

/-- Steps 8 to 12 are stopped by the arithmetic unit or by the data-memory checks. -/
theorem backSignals_error {f : FrontSignals} {s : State} {e : ModelFault} (h : backSignals f s = .error e) :
    (∃ a b, alu a b f.aluOp = .error e) ∨ ∃ addr, dataFault s.params addr = some e := by
  simp only [backSignals] at h
  split at h
  · next halu =>
    cases h
    exact .inl ⟨_, _, halu⟩
  · split at h
    · next hport =>
      cases h
      exact .inr ⟨_, dmemPort_error hport⟩
    · cases h

/-- An instruction is stopped by the data-memory checks alone: both control ROMs have a row for it, and the arithmetic
unit a result for the code they give. -/
theorem exec_fault {i : Instr} {s : State} {f : Fault} (h : exec i s = .fault f) :
    ∃ addr e, dataFault s.params addr = some e ∧ f = .model e := by
  obtain ⟨ctl, code, hctl, hcode⟩ := controlRow i
  simp only [exec_eq_datapath, datapath, frontSignals_of _ s.pc ctl code hctl hcode] at h
  split at h
  · cases h
  · split at h
    · next e hback =>
      cases h
      rcases backSignals_error hback with ⟨a, b, halu⟩ | ⟨addr, hd⟩
      · obtain ⟨r, hr⟩ := aluResult_of_code a b (aluControl_code hcode)
        cases (alu_of_result hr).symm.trans halu
      · exact ⟨addr, e, hd, rfl⟩
    · cases h

/-- Every fault a step can answer: program end, a misaligned fetch, an unsupported opcode, or one of the two faults of a
data access. -/
inductive StepFault : Fault → Prop where
  | programEnd : StepFault .programEnd
  | misalignedFetch (pc : Word) : StepFault (.model (.misalignedFetch pc))
  | unsupportedOpcode (pc instr : Word) (opcode : Opcode) : StepFault (.control (.unsupportedOpcode pc instr opcode))
  | misalignedData (addr : Word) : StepFault (.model (.misalignedData addr))
  | dataOutOfRange (addr : Word) : StepFault (.model (.dataOutOfRange addr))

theorem stepFault_of_fetch_error {s : State} {f : Fault} (h : s.fetch = .error f) : StepFault f := by
  rcases s.fetch_cases with ⟨-, hf⟩ | ⟨-, -, hf⟩ | ⟨-, -, w, -, hf⟩
  · cases hf.symm.trans h
    exact .programEnd
  · cases hf.symm.trans h
    exact .misalignedFetch _
  · cases hf.symm.trans h

theorem stepFault_of_exec_fault {i : Instr} {s : State} {f : Fault} (h : exec i s = .fault f) : StepFault f := by
  obtain ⟨addr, e, hd, rfl⟩ := exec_fault h
  rcases dataFault_some hd with rfl | rfl
  · exact .misalignedData addr
  · exact .dataOutOfRange addr

theorem step_fault {s : State} {f : Fault} (h : step s = .fault f) : StepFault f := by
  cases hf : s.commit.fetch with
  | error f' =>
    cases (step_of_fetch_error hf).symm.trans h
    exact stepFault_of_fetch_error hf
  | ok w =>
    cases hd : decode w with
    | error k =>
      cases (step_of_decode_error hf hd).symm.trans h
      exact .unsupportedOpcode _ _ _
    | ok i =>
      rw [step_of_decode_ok hf hd] at h
      cases he : exec i s.commit with
      | next t => rw [he] at h; cases h
      | fault f' =>
        rw [he] at h
        cases h
        exact stepFault_of_exec_fault he
      | refused r => rw [he] at h; cases h

end Sys2Proof.Machine
end

section
/-! SUPPORT. The sign extension and the two addresses in the library's words: `signExtend`, a multiplication by 4 and a
concatenation of fields. -/

namespace Sys2Proof.Machine

/-! ### The masks of the extension unit and of the jump address, bit by bit -/

theorem upperHalfMask_bit {k : Nat} (hk : k < 32) : (0xFFFF0000 : Word).getLsbD k = decide (16 ≤ k) := by
  revert k; decide

theorem topFourMask_bit {k : Nat} (hk : k < 32) : (0xF0000000 : Word).getLsbD k = decide (28 ≤ k) := by
  revert k; decide

theorem targetMask_bit {k : Nat} (hk : k < 32) : (0x03FFFFFF : Word).getLsbD k = decide (k < 26) := by
  revert k; decide

/-! ### Sign extension (R100) -/

/-- The extension unit's OR with the upper half copies bit 15 (R100). -/
theorem sext_eq_signExtend (imm : Imm16) : sext imm = imm.signExtend 32 := by
  apply BitVec.eq_of_getLsbD_eq
  intro k hk
  have hmsb : imm.msb = imm.getLsbD 15 := BitVec.msb_eq_getLsbD_last imm
  have hhigh (h : 16 ≤ k) : imm.getLsbD k = false := BitVec.getLsbD_of_ge imm k h
  rw [BitVec.getLsbD_signExtend, hmsb, sext]
  cases imm.getLsbD 15 with
  | false =>
    rw [if_neg Bool.false_ne_true, BitVec.getLsbD_setWidth]
    by_cases hlow : k < 16
    · simp [hk, hlow]
    · simp [hlow, hhigh (by omega)]
  | true =>
    rw [if_pos rfl, BitVec.getLsbD_or, BitVec.getLsbD_setWidth, upperHalfMask_bit hk]
    by_cases hlow : k < 16
    · simp [hk, hlow]
    · simp [hk, hlow, show 16 ≤ k by omega]

/-! ### Branch and jump addresses (R102, R103) -/

theorem shiftLeft_two (x : Word) : x <<< 2 = 4 * x := by
  apply BitVec.eq_of_toNat_eq
  simp [BitVec.toNat_shiftLeft, Nat.shiftLeft_eq, Nat.mul_comm]

theorem branchAddr_eq_ofInt (pc4 x : Word) :
    branchAddr pc4 x = BitVec.ofInt 32 ((pc4.toNat : Int) + 4 * x.toInt) := by
  rw [branchAddr, shiftLeft_two, BitVec.ofInt_add, BitVec.ofInt_mul, BitVec.ofInt_toInt, BitVec.ofInt_natCast,
    BitVec.ofNat_toNat, BitVec.setWidth_eq]
  rfl

/-- A branch moves by words: the low two bits are those of PC+4 (R102). -/
theorem branchAddr_mod_four (pc4 x : Word) : (branchAddr pc4 x).toNat % 4 = pc4.toNat % 4 := by
  simp only [branchAddr, BitVec.toNat_add, BitVec.toNat_shiftLeft, Nat.shiftLeft_eq]
  omega

theorem pcPlus4_mod_four (pc : Word) : (pcPlus4 pc).toNat % 4 = pc.toNat % 4 := by
  simp only [pcPlus4, BitVec.toNat_add, BitVec.reduceToNat]
  omega

/-- R103's formula, with the shift as the factor 4. -/
theorem jumpAddr_eq_mul (pc4 instr : Word) :
    jumpAddr pc4 instr = (pc4 &&& 0xF0000000) ||| (4 * (instr &&& 0x03FFFFFF)) := by
  rw [jumpAddr, shiftLeft_two]
  rfl

/-- The jump address bit by bit: two zeros, 26 bits of the word, four bits of PC+4 (R103). -/
theorem jumpAddr_eq_append (pc4 instr : Word) :
    jumpAddr pc4 instr = pc4.extractLsb' 28 4 ++ targetOf instr ++ 0#2 := by
  apply BitVec.eq_of_getLsbD_eq
  intro k hk
  rw [jumpAddr_eq_mul, ← shiftLeft_two]
  simp only [targetOf, BitVec.getLsbD_or, BitVec.getLsbD_and, BitVec.getLsbD_shiftLeft,
    BitVec.getLsbD_append, BitVec.getLsbD_extractLsb', topFourMask_bit hk]
  by_cases hzeros : k < 2
  · simp [hzeros, show ¬ 28 ≤ k by omega]
  · rw [targetMask_bit (show k - 2 < 32 by omega)]
    by_cases htarget : k < 28
    · simp [hzeros, hk, show ¬ 28 ≤ k by omega, show k - 2 < 26 by omega]
    · simp [hzeros, hk, show 28 ≤ k by omega, show ¬ k - 2 < 26 by omega, show k - 2 - 26 < 4 by omega,
        show 28 + (k - 2 - 26) = k by omega]

end Sys2Proof.Machine
end

section
open Sys2Proof Sys2Proof.Machine

/-- Settles O7, row by row over the 64 opcodes. -/
theorem mainControlRom : Obligations.MainControlRom := by
  unfold Obligations.MainControlRom
  decide

/-- Settles O8, row by row over the 4 ALUOps and the 64 function codes. -/
theorem aluControlRom : Obligations.AluControlRom := by
  unfold Obligations.AluControlRom
  decide

/-- Settles O9: neither error is among the faults a step can answer. -/
theorem unreachableControlErrorsNeverHappen : Obligations.UnreachableControlErrorsNeverHappen := by
  refine ⟨fun _ _ => mainControl_aluOp_ne, fun s pc instr op h => ?_, fun s code h => ?_⟩
  · cases step_fault h
  · cases step_fault h

/-- Settles O10: the extension is the library's `signExtend`, whose signed value is the immediate's. -/
theorem signExtension : Obligations.SignExtension := by
  intro imm
  have hmsb : imm.msb = imm.getLsbD 15 := BitVec.msb_eq_getLsbD_last imm
  rw [sext_eq_signExtend]
  refine ⟨?_, ?_, fun k hlow hk => ?_⟩
  · rw [BitVec.toInt_signExtend_of_le (by decide), BitVec.toInt_eq_msb_cond, hmsb]
    rfl
  · apply BitVec.eq_of_getLsbD_eq
    intro k hk
    rw [BitVec.getLsbD_extractLsb', BitVec.getLsbD_signExtend]
    simp [hk, show k < 32 by omega]
  · rw [BitVec.getLsbD_signExtend, hmsb, if_neg (by omega)]
    simp [hk]

/-- Settles O11: the shift by two is the factor 4. -/
theorem branchAddress : Obligations.BranchAddress := by
  intro pc imm
  exact ⟨branchAddr_eq_ofInt _ _, (branchAddr_mod_four _ _).trans (pcPlus4_mod_four pc)⟩

/-- Settles O12, by the bits of the two masks. -/
theorem jumpAddress : Obligations.JumpAddress := by
  intro pc instr
  exact ⟨jumpAddr_eq_mul _ _, jumpAddr_eq_append _ _⟩

/-- Settles O13, one result for each of the five codes. -/
theorem arithmeticUnit : Obligations.ArithmeticUnit := by
  intro a b
  refine ⟨⟨a &&& b, alu_of_result rfl, fun k => BitVec.getLsbD_and⟩,
    ⟨a ||| b, alu_of_result rfl, fun k => BitVec.getLsbD_or⟩, ⟨a + b, alu_of_result rfl, BitVec.toNat_add a b⟩,
    ⟨a - b, alu_of_result rfl, ?_⟩, ⟨if a.slt b then 1 else 0, alu_of_result rfl, ?_⟩,
    fun code => alu_error_of_not_mem a b⟩
  · rw [BitVec.toNat_sub]
    omega
  · simp only [BitVec.slt_iff_toInt_lt]

end

section
/-! SUPPORT. The word of the instruction that a word decodes to is the word itself, so the decoded path through `exec`
and the datapath on the raw word are one cycle. -/

namespace Sys2Proof

variable {w : Word}

theorem encode_decodeRType (hop : (decodeFields w).opcode = 0) : encode (decodeRType w) = w := by
  have hw := encodeR_decodeFields w hop
  simp only [decodeRType]
  repeat' split
  all_goals simp_all only [encode]

theorem encodeI_of_opcode {opcode : Opcode} (hop : (decodeFields w).opcode = opcode) :
    encodeI opcode (decodeFields w).rs (decodeFields w).rt (decodeFields w).imm = w := by
  rw [← hop, encodeI_decodeFields]

theorem supported_of_decode_ok {i : Instr} (h : decode w = .ok i) :
    (decodeFields w).opcode ∈ Machine.supportedOpcodes := by
  by_contra hop
  cases (decode_of_unsupported hop).symm.trans h

theorem encode_of_decode {i : Instr} (h : decode w = .ok i) : encode i = w := by
  have hop := supported_of_decode_ok h
  simp only [Machine.supportedOpcodes, List.mem_cons, List.not_mem_nil, or_false] at hop
  rcases hop with hop | hop | hop | hop | hop | hop
  · cases (decode_rtype hop).symm.trans h
    exact encode_decodeRType hop
  · cases (decode_j hop).symm.trans h
    exact encodeJ_targetOf w hop
  · cases (decode_beq hop).symm.trans h
    exact encodeI_of_opcode hop
  · cases (decode_addi hop).symm.trans h
    exact encodeI_of_opcode hop
  · cases (decode_lw hop).symm.trans h
    exact encodeI_of_opcode hop
  · cases (decode_sw hop).symm.trans h
    exact encodeI_of_opcode hop

theorem unsupported_of_decode_error {k : ControlErrorKind} (h : decode w = .error k) :
    (decodeFields w).opcode ∉ Machine.supportedOpcodes := by
  intro hop
  obtain ⟨i, hi⟩ := decode_of_supported hop
  cases hi.symm.trans h

end Sys2Proof

namespace Sys2Proof.Machine

variable {s : State} {w : Word}

theorem mainControl_of_unsupported {op : Opcode} (h : op ∉ supportedOpcodes) :
    mainControl op = .error .unsupportedOpcode := by
  simp only [supportedOpcodes, List.mem_cons, List.not_mem_nil, or_false, not_or] at h
  simp only [mainControl, h, if_false]

/-- The main control ROM raises the decoder's error, in either mode (R135, R220). -/
theorem datapath_of_unsupported (h : (decodeFields w).opcode ∉ supportedOpcodes) :
    datapath w s = .fault (.control (.unsupportedOpcode s.pc w (decodeFields w).opcode)) := by
  simp [datapath, frontSignals, mainControl_of_unsupported h, abort]

/-- A step is one cycle of the datapath on the fetched word, counted where it completes. -/
theorem step_of_fetch_ok (hf : s.commit.fetch = .ok w) :
    step s = mapNext State.countCycle (datapath w s.commit) := by
  cases hd : decode w with
  | error k =>
    rw [step_of_decode_error hf hd, datapath_of_unsupported (unsupported_of_decode_error hd)]
    rfl
  | ok i => rw [step_of_decode_ok hf hd, exec_eq_datapath, encode_of_decode hd]

end Sys2Proof.Machine
end

section
open Sys2Proof Sys2Proof.Machine

/-- Settles O36: the instruction's word is the fetched word, and the decoder fails where the main control ROM does. -/
theorem stepIsTheDatapathCycle : Obligations.StepIsTheDatapathCycle := by
  intro s
  cases hf : s.commit.fetch with
  | error f => exact step_of_fetch_error hf
  | ok w =>
    rw [step_of_fetch_ok hf]
    dsimp only
    cases datapath w s.commit <;> rfl

/-- Settles O35, by the fetch and the decoder's success. -/
theorem stepRunsTheDecodedInstruction : Obligations.StepRunsTheDecodedInstruction := by
  intro s w i ha hw hd
  have hf : s.commit.fetch = .ok w := State.fetch_of_getElem? ha hw
  rw [step_of_decode_ok hf hd]
  cases exec i s.commit <;> rfl

end

section
/-! SUPPORT. The count of completed cycles is read by no unit of the cycle: a step from a state with a larger count is
the same step, with the count that much larger. -/

namespace Sys2Proof.Machine

/-- The state with `m` more cycles on its count. -/
def State.addCycles (m : Nat) (s : State) : State := { s with cycles := m + s.cycles }

variable (m : Nat) (s : State)

@[simp] theorem State.addCycles_cycles : (s.addCycles m).cycles = m + s.cycles := rfl

@[simp] theorem State.commit_addCycles : (s.addCycles m).commit = s.commit.addCycles m := rfl

@[simp] theorem State.fetch_addCycles : (s.addCycles m).fetch = s.fetch := rfl

@[simp] theorem State.addCycles_pc : (s.addCycles m).pc = s.pc := rfl

@[simp] theorem State.phaseRestricted_addCycles : (s.addCycles m).phaseRestricted = s.phaseRestricted := rfl

@[simp] theorem backSignals_addCycles (f : FrontSignals) : backSignals f (s.addCycles m) = backSignals f s := rfl

/-- A state is its own run's start with its count put back. -/
theorem State.addCycles_startRun : s.startRun.addCycles s.cycles = s := rfl

theorem datapath_addCycles (w : Word) : datapath w (s.addCycles m) = mapNext (State.addCycles m) (datapath w s) := by
  simp only [datapath, State.addCycles_pc, backSignals_addCycles]
  cases frontSignals w s.pc with
  | error e => rfl
  | ok f =>
    dsimp only
    rw [State.phaseRestricted_addCycles]
    cases s.phaseRestricted with
    | true => rfl
    | false => cases backSignals f s <;> rfl

theorem step_addCycles : step (s.addCycles m) = mapNext (State.addCycles m) (step s) := by
  cases hf : s.commit.fetch with
  | error f =>
    rw [step_of_fetch_error hf, step_of_fetch_error (s := s.addCycles m) hf]
    rfl
  | ok w =>
    rw [step_of_fetch_ok hf, step_of_fetch_ok (s := s.addCycles m) hf, State.commit_addCycles, datapath_addCycles]
    cases datapath w s.commit <;> rfl

end Sys2Proof.Machine
end

section
/-! SUPPORT. One turn of the run loop, and what the loop answers after any number of completed cycles. -/

namespace Sys2Proof.Machine

variable {maxCycles fuel : Nat} {s t : State}

/-- A step completes or stops with a fault. -/
theorem step_next_or_fault (s : State) : (∃ t, step s = .next t) ∨ ∃ f, step s = .fault f := by
  cases h : step s with
  | next t => exact .inl ⟨t, rfl⟩
  | fault f => exact .inr ⟨f, rfl⟩
  | refused r => exact absurd h (noStepIsRefused s r)

/-- What a run hands the caller where its step stops with a fault (R134, R147, R226). -/
def stopOutcome (s : State) : Fault → RunOutcome
  | .programEnd => .done s.cycles .programEnd
  | .control e => .fatal e
  | .model f => .modelFault f

/-! ### The budget test (R130) -/

theorem budgetSpent_iff : budgetSpent maxCycles s = true ↔ maxCycles ≠ 0 ∧ s.cycles = maxCycles := by
  simp [budgetSpent]

theorem budgetSpent_of_ne (h : s.cycles ≠ maxCycles) : budgetSpent maxCycles s = false := by
  simp [budgetSpent, h]

@[simp] theorem budgetSpent_zero (s : State) : budgetSpent 0 s = false := rfl

@[simp] theorem budgetSpent_startRun (maxCycles : Nat) (s : State) : budgetSpent maxCycles s.startRun = false := by
  cases maxCycles <;> rfl

theorem budgetSpent_addCycles (m : Nat) (h : maxCycles ≠ 0) :
    budgetSpent (m + maxCycles) (s.addCycles m) = budgetSpent maxCycles s := by
  rw [Bool.eq_iff_iff, budgetSpent_iff, budgetSpent_iff, State.addCycles_cycles]
  omega

/-! ### One turn -/

theorem runLoop_of_spent (hb : budgetSpent maxCycles s = true) :
    runLoop maxCycles (fuel + 1) s = some (.done s.cycles .budgetSpent, s) := by
  simp [runLoop, hb]

theorem runLoop_of_next (hb : budgetSpent maxCycles s = false) (h : step s = .next t) :
    runLoop maxCycles (fuel + 1) s = runLoop maxCycles fuel t := by
  simp [runLoop, hb, h]

theorem runLoop_of_fault {f : Fault} (hb : budgetSpent maxCycles s = false) (h : step s = .fault f) :
    runLoop maxCycles (fuel + 1) s = some (stopOutcome s f, s.commit) := by
  cases f <;> simp [runLoop, hb, h, stopOutcome]

/-- The three things a turn of the loop can be. -/
inductive Turn (maxCycles : Nat) (s : State) : Prop where
  /-- The budget is spent and no cycle starts. -/
  | spent (hb : budgetSpent maxCycles s = true)
  /-- The cycle completes. -/
  | next (t : State) (hb : budgetSpent maxCycles s = false) (h : step s = .next t)
  /-- The cycle stops. -/
  | stop (f : Fault) (hb : budgetSpent maxCycles s = false) (h : step s = .fault f)

theorem turn_cases (maxCycles : Nat) (s : State) : Turn maxCycles s := by
  cases hb : budgetSpent maxCycles s with
  | true => exact .spent hb
  | false =>
    rcases step_next_or_fault s with ⟨t, h⟩ | ⟨f, h⟩
    · exact .next t hb h
    · exact .stop f hb h

theorem step_cycles (h : step s = .next t) : t.cycles = s.cycles + 1 := by
  obtain ⟨-, -, -, -, -, hc⟩ := step_frame s t h
  exact hc

/-! ### Whole runs -/

theorem runLoop_deterministic {r r' : RunOutcome × State} :
    ∀ (fuel fuel' : Nat) (s : State), runLoop maxCycles fuel s = some r → runLoop maxCycles fuel' s = some r' → r = r'
  | 0, _, _, h, _ => by cases h
  | _ + 1, 0, _, _, h' => by cases h'
  | fuel + 1, fuel' + 1, s, h, h' => by
    cases turn_cases maxCycles s with
    | spent hb =>
      rw [runLoop_of_spent hb] at h h'
      exact Option.some.inj (h.symm.trans h')
    | next t hb ht =>
      rw [runLoop_of_next hb ht] at h h'
      exact runLoop_deterministic fuel fuel' t h h'
    | stop f hb hf =>
      rw [runLoop_of_fault hb hf] at h h'
      exact Option.some.inj (h.symm.trans h')

/-- A count an outcome returns is within the budget and is the state's, and is the budget where that is the reason
(R130, R146). -/
def WithinBudget (maxCycles : Nat) (o : RunOutcome) (t : State) : Prop :=
  ∀ count why, o = .done count why → count ≤ maxCycles ∧ count = t.cycles ∧ (why = .budgetSpent → count = maxCycles)

theorem withinBudget_stopOutcome (h : s.cycles ≤ maxCycles) (f : Fault) :
    WithinBudget maxCycles (stopOutcome s f) s.commit := by
  intro count why ho
  cases f with
  | programEnd =>
    cases ho
    exact ⟨h, rfl, nofun⟩
  | control e => cases ho
  | model f => cases ho

/-- The loop ends within its budget: each turn that does not end it brings the count one closer. -/
theorem runLoop_ends (hm : maxCycles ≠ 0) :
    ∀ (fuel : Nat) (s : State), s.cycles ≤ maxCycles → maxCycles < s.cycles + fuel →
      ∃ o t, runLoop maxCycles fuel s = some (o, t) ∧ WithinBudget maxCycles o t
  | 0, s, hle, hlt => by omega
  | fuel + 1, s, hle, hlt => by
    cases turn_cases maxCycles s with
    | spent hb =>
      obtain ⟨-, hc⟩ := budgetSpent_iff.1 hb
      refine ⟨_, _, runLoop_of_spent hb, fun count why ho => ?_⟩
      cases ho
      exact ⟨hle, rfl, fun _ => hc⟩
    | next t hb ht =>
      have hne : s.cycles ≠ maxCycles := fun hc => by simp [budgetSpent_iff.2 ⟨hm, hc⟩] at hb
      have hc := step_cycles ht
      rw [runLoop_of_next hb ht]
      exact runLoop_ends hm fuel t (by omega) (by omega)
    | stop f hb hf => exact ⟨_, _, runLoop_of_fault hb hf, withinBudget_stopOutcome hle f⟩

/-! ### Runs and the cycles they complete -/

theorem reaches_cycles : ∀ (k : Nat) (s : State), Reaches k s t → t.cycles = s.cycles + k
  | 0, s, h => by rw [h, Nat.add_zero]
  | k + 1, s, ⟨u, hu, hr⟩ => by rw [reaches_cycles k u hr, step_cycles hu]; omega

/-- The loop passes through the cycles that complete within its budget. -/
theorem runLoop_of_reaches :
    ∀ (k : Nat) (s : State), maxCycles = 0 ∨ s.cycles + k ≤ maxCycles → Reaches k s t →
      runLoop maxCycles (k + fuel) s = runLoop maxCycles fuel t
  | 0, s, _, h => by rw [h, Nat.zero_add]
  | k + 1, s, hm, ⟨u, hu, hr⟩ => by
    have hb : budgetSpent maxCycles s = false := by
      rcases hm with rfl | hm
      · exact budgetSpent_zero s
      · exact budgetSpent_of_ne (by omega)
    have hc := step_cycles hu
    rw [Nat.add_right_comm, runLoop_of_next hb hu]
    exact runLoop_of_reaches k u (by omega) hr

/-- A loop that spends its budget has completed the cycles up to it. -/
theorem reaches_of_runLoop_spent {count : Nat} :
    ∀ (fuel : Nat) (s : State), runLoop maxCycles fuel s = some (.done count .budgetSpent, t) →
      ∃ k, Reaches k s t ∧ t.cycles = maxCycles
  | 0, _, h => by cases h
  | fuel + 1, s, h => by
    cases turn_cases maxCycles s with
    | spent hb =>
      obtain ⟨-, hc⟩ := budgetSpent_iff.1 hb
      cases (runLoop_of_spent hb).symm.trans h
      exact ⟨0, rfl, hc⟩
    | next u hb hu =>
      obtain ⟨k, hr, hc⟩ := reaches_of_runLoop_spent fuel u ((runLoop_of_next hb hu).symm.trans h)
      exact ⟨k + 1, ⟨u, hu, hr⟩, hc⟩
    | stop f hb hf => cases f <;> cases (runLoop_of_fault hb hf).symm.trans h

/-- The outcome with `m` more cycles on the count it returns. -/
def RunOutcome.addCycles (m : Nat) : RunOutcome → RunOutcome
  | .done count why => .done (m + count) why
  | .fatal e => .fatal e
  | .modelFault f => .modelFault f
  | .notExecuted r => .notExecuted r

theorem stopOutcome_addCycles (m : Nat) (s : State) (f : Fault) :
    stopOutcome (s.addCycles m) f = (stopOutcome s f).addCycles m := by
  cases f <;> rfl

/-- A loop whose count and budget are both larger by `m` goes the same way, with the larger count. -/
theorem runLoop_addCycles (m : Nat) (hn : maxCycles ≠ 0) {o : RunOutcome} {u : State} :
    ∀ (fuel : Nat) (s : State), runLoop maxCycles fuel s = some (o, u) →
      runLoop (m + maxCycles) fuel (s.addCycles m) = some (o.addCycles m, u.addCycles m)
  | 0, _, h => by cases h
  | fuel + 1, s, h => by
    have hbudget := budgetSpent_addCycles (s := s) m hn
    cases turn_cases maxCycles s with
    | spent hb =>
      cases (runLoop_of_spent hb).symm.trans h
      exact runLoop_of_spent (hbudget.trans hb)
    | next t hb ht =>
      have hstep : step (s.addCycles m) = .next (t.addCycles m) := by rw [step_addCycles, ht]; rfl
      rw [runLoop_of_next (hbudget.trans hb) hstep]
      exact runLoop_addCycles m hn fuel t ((runLoop_of_next hb ht).symm.trans h)
    | stop f hb hf =>
      have hstep : step (s.addCycles m) = .fault f := by rw [step_addCycles, hf]; rfl
      cases (runLoop_of_fault hb hf).symm.trans h
      rw [runLoop_of_fault (hbudget.trans hb) hstep, stopOutcome_addCycles, State.commit_addCycles]

/-! ### A run that stops in its first cycle -/

theorem step_startRun_of_fault {f : Fault} (h : step s = .fault f) : step s.startRun = .fault f := by
  have hs := step_addCycles s.cycles s.startRun
  rw [State.addCycles_startRun, h] at hs
  cases hstart : step s.startRun with
  | next t => rw [hstart] at hs; cases hs
  | fault f' => rw [hstart] at hs; cases hs; rfl
  | refused r => rw [hstart] at hs; cases hs

theorem run_of_fault (maxCycles fuel : Nat) {f : Fault} (h : step s = .fault f) :
    run maxCycles (fuel + 1) s = some (stopOutcome s.startRun f, s.commit.startRun) :=
  runLoop_of_fault (budgetSpent_startRun maxCycles s) (step_startRun_of_fault h)

end Sys2Proof.Machine
end

section
open Sys2Proof Sys2Proof.Machine

/-- Settles O49, by the loop's measure from a count of 0. -/
theorem budgetedRunEnds : Obligations.BudgetedRunEnds := by
  intro maxCycles s hm
  exact runLoop_ends hm (maxCycles + 1) s.startRun (Nat.zero_le _) (by rw [State.startRun_cycles]; omega)

/-- Settles O50, by the loop's turns. -/
theorem runHasOneOutcome : Obligations.RunHasOneOutcome :=
  fun _ fuel fuel' s _ _ h h' => runLoop_deterministic fuel fuel' s.startRun h h'

/-- Settles O51: the stop is the first turn's, and the commit of a commit changes nothing. -/
theorem stoppedRunLeavesTheCommit : Obligations.StoppedRunLeavesTheCommit := by
  intro maxCycles fuel s
  refine ⟨run_of_fault maxCycles fuel, fun f => run_of_fault maxCycles fuel,
    fun e he => ⟨run_of_fault maxCycles fuel he, ?_⟩⟩
  have hcommit : step s.commit.startRun = .fault (.control e) := step_startRun_of_fault he
  exact run_of_fault maxCycles fuel hcommit

/-- Settles O52: the first run is `m` completed cycles, which the long run passes through too, and the rest of the long
run is the second run with `m` more on its count. -/
theorem budgetedRunsResume : Obligations.BudgetedRunsResume := by
  intro m n s t u o hm hn hfirst hsecond
  obtain ⟨k, hreach, hcount⟩ := reaches_of_runLoop_spent (m + 1) s.startRun hfirst
  have hk : k = m := by
    have := reaches_cycles k _ hreach
    rw [State.startRun_cycles] at this
    omega
  subst hk
  have hlong : run (k + n) (k + n + 1) s = runLoop (k + n) (n + 1) t := by
    rw [run, Nat.add_assoc k n 1]
    exact runLoop_of_reaches k s.startRun (.inr (by rw [State.startRun_cycles]; omega)) hreach
  have hrest : runLoop (k + n) (n + 1) t = some (o.addCycles k, u.addCycles k) := by
    have := runLoop_addCycles k hn (n + 1) t.startRun hsecond
    rwa [← hcount, State.addCycles_startRun, hcount] at this
  rw [hlong, hrest]
  cases o <;> rfl

end

section
/-! SUPPORT. Runs that go through the image word by word to its end. -/

namespace Sys2Proof.Machine

variable {s t : State} {w : Word}

theorem pcPlus4_toNat {pc : Word} (h : pc.toNat + 4 < 2 ^ 32) : (pcPlus4 pc).toNat = pc.toNat + 4 := by
  rw [pcPlus4, BitVec.toNat_add]
  exact Nat.mod_eq_of_lt h

@[simp] theorem State.nextPc_startRun (s : State) : s.startRun.nextPc = s.nextPc := rfl

theorem step_of_exhausted (h : 4 * s.imem.length ≤ s.nextPc.toNat) : step s = .fault .programEnd := by
  have hx : s.commit.exhausted = true := (State.exhausted_iff _).2 h
  exact step_of_fetch_error (by simp [State.fetch, hx])

theorem State.fetch_of_aligned_of_lt (ha : s.pc.toNat % 4 = 0) (hlt : s.pc.toNat < 4 * s.imem.length) :
    ∃ w, s.imem[s.pc.toNat / 4]? = some w ∧ s.fetch = .ok w := by
  have hw : s.imem[s.pc.toNat / 4]? = some s.imem[s.pc.toNat / 4] := List.getElem?_eq_getElem (by omega)
  exact ⟨_, hw, State.fetch_of_getElem? ha hw⟩

/-- A property that every fetched word's step keeps while it advances the PC by 4 holds at the end of the image, which
is reached after as many cycles as there are words on the way. The PC does not wrap in an image of fewer than 2^30
words (log 16). -/
theorem reaches_imageEnd {P : State → Prop}
    (hP : ∀ (s : State) (w : Word), P s → s.imem[s.nextPc.toNat / 4]? = some w → s.commit.fetch = .ok w →
      (pcPlus4 s.nextPc).toNat = s.nextPc.toNat + 4 →
      ∃ t, step s = .next t ∧ t.nextPc = pcPlus4 s.nextPc ∧ P t) :
    ∀ (k : Nat) (s : State), P s → s.imem.length < 2 ^ 30 → s.nextPc.toNat + 4 * k = 4 * s.imem.length →
      ∃ t, Reaches k s t ∧ P t ∧ t.imem = s.imem ∧ t.nextPc.toNat = 4 * s.imem.length
  | 0, s, hs, _, hend => ⟨s, rfl, hs, rfl, by omega⟩
  | k + 1, s, hs, hlen, hend => by
    obtain ⟨w, hw, hf⟩ := State.fetch_of_aligned_of_lt (s := s.commit) (by rw [State.commit_pc]; omega)
      (by rw [State.commit_pc, State.commit_imem]; omega)
    have hpc4 : (pcPlus4 s.nextPc).toNat = s.nextPc.toNat + 4 := pcPlus4_toNat (by omega)
    obtain ⟨u, hu, hnext, hPu⟩ := hP s w hs hw hf hpc4
    have himem : u.imem = s.imem := (step_frame s u hu).1
    obtain ⟨t, hr, hPt, ht, hpc⟩ := reaches_imageEnd hP k u hPu (by rwa [himem]) (by rw [hnext, hpc4, himem]; omega)
    exact ⟨t, ⟨u, hu, hr⟩, hPt, ht.trans himem, by rw [hpc, himem]⟩

/-- A run without a budget that completes `k` cycles up to the end of the image ends there (R134, R146). -/
theorem run_of_reaches_end {k : Nat} (hr : Reaches k s.startRun t) (hend : 4 * t.imem.length ≤ t.nextPc.toNat) :
    run 0 (k + 1) s = some (.done k .programEnd, t.commit) := by
  have hc := reaches_cycles k _ hr
  rw [State.startRun_cycles, Nat.zero_add] at hc
  rw [run, runLoop_of_reaches k _ (.inl rfl) hr, runLoop_of_fault (budgetSpent_zero t) (step_of_exhausted hend),
    stopOutcome, hc]

/-! ### Phase-restricted cycles (R138, R150) -/

/-- The state after a phase-restricted cycle. -/
def State.restrictedNext (s : State) : State := (s.commit.stagePc (pcPlus4 s.nextPc)).countCycle

@[simp] theorem State.restrictedNext_nextPc : s.restrictedNext.nextPc = pcPlus4 s.nextPc := rfl

@[simp] theorem State.restrictedNext_cycles : s.restrictedNext.cycles = s.cycles + 1 := rfl

theorem step_of_restricted {i : Instr} (hp : s.phaseRestricted = true) (hf : s.commit.fetch = .ok w)
    (hd : decode w = .ok i) : step s = .next s.restrictedNext := by
  rw [step_of_decode_ok hf hd, exec_restricted i (s := s.commit) hp]
  rfl

theorem eq_restrictedNext (hp : s.phaseRestricted = true) (h : step s = .next t) : t = s.restrictedNext := by
  obtain ⟨w, i, u, hf, hd, -, -⟩ := step_next s t h
  cases h.symm.trans (step_of_restricted hp hf hd)
  rfl

/-- Where a phase-restricted run from `s` has come to while the words on its way have supported opcodes. -/
structure RestrictedRun (s t : State) : Prop where
  restricted : t.phaseRestricted = true
  imem : t.imem = s.imem
  dmem : t.dmem = s.dmem
  regs : t.committedRegs = s.committedRegs
  pc : s.nextPc.toNat ≤ t.nextPc.toNat

theorem RestrictedRun.next (h : RestrictedRun s t) (hf : t.commit.fetch = .ok w)
    (hop : (decodeFields w).opcode ∈ supportedOpcodes) (hpc4 : (pcPlus4 t.nextPc).toNat = t.nextPc.toNat + 4) :
    ∃ u, step t = .next u ∧ u.nextPc = pcPlus4 t.nextPc ∧ RestrictedRun s u := by
  obtain ⟨hp, himem, hdmem, hregs, hpc⟩ := h
  obtain ⟨i, hi⟩ := decode_of_supported hop
  refine ⟨t.restrictedNext, step_of_restricted hp hf hi, rfl, hp, himem, hdmem, hregs, ?_⟩
  rw [State.restrictedNext_nextPc, hpc4]
  omega

/-! ### Register instructions (R146) -/

/-- A word of opcode 0 or 8 completes outside the phase restriction: it stages a register write and PC+4. -/
theorem datapath_register_word (hp : s.phaseRestricted = false)
    (hop : (decodeFields w).opcode = 0 ∨ (decodeFields w).opcode = 8) :
    ∃ r v, datapath w s = .next ((s.stageReg r v).stagePc (pcPlus4 s.pc)) := by
  rcases hop with hop | hop
  · obtain ⟨v, hv⟩ := datapath_encodeR (decodeFields w).rd (decodeFields w).rs (decodeFields w).rt (shamtOf w)
      (decodeFields w).funct hp
    rw [encodeR_decodeFields w hop] at hv
    exact ⟨_, v, hv⟩
  · exact ⟨_, _, datapath_addi w s hp hop⟩

/-- Where a run of register instructions from `s` has come to. -/
structure StraightLineRun (s t : State) : Prop where
  unrestricted : t.phaseRestricted = false
  imem : t.imem = s.imem
  dmem : t.dmem = s.dmem

theorem StraightLineRun.next (h : StraightLineRun s t) (hf : t.commit.fetch = .ok w)
    (hop : (decodeFields w).opcode = 0 ∨ (decodeFields w).opcode = 8) :
    ∃ u, step t = .next u ∧ u.nextPc = pcPlus4 t.nextPc ∧ StraightLineRun s u := by
  obtain ⟨r, v, hv⟩ := datapath_register_word (s := t.commit) h.unrestricted hop
  refine ⟨((t.commit.stageReg r v).stagePc (pcPlus4 t.nextPc)).countCycle, ?_, rfl,
    h.unrestricted, h.imem, h.dmem⟩
  rw [step_of_fetch_ok hf, hv]
  rfl

end Sys2Proof.Machine
end

section
open Sys2Proof Sys2Proof.Machine

/-- Settles O46, by induction on the number of cycles: each one is the commit and PC+4 and no more. -/
theorem phaseRestrictedRunsNeverMutate : Obligations.PhaseRestrictedRunsNeverMutate := by
  intro n
  induction n with
  | zero =>
    rintro s t hp ⟨u, hu, rfl⟩
    rw [eq_restrictedNext hp hu]
    exact ⟨rfl, rfl, rfl, rfl, rfl⟩
  | succ n ih =>
    rintro s t hp ⟨u, hu, hr⟩
    obtain rfl := eq_restrictedNext hp hu
    obtain ⟨hdmem, hregs, hpend, hpc, hcycles⟩ := ih s.restrictedNext t hp hr
    refine ⟨hdmem, hregs, hpend, ?_, ?_⟩
    · rw [hpc, State.restrictedNext_nextPc, pcPlus4, BitVec.add_assoc, Nat.mul_succ 4 (n + 1),
        Nat.add_comm (4 * (n + 1)), BitVec.ofNat_add]
      rfl
    · rw [hcycles, State.restrictedNext_cycles]
      omega

/-- Settles O47: the run goes through the rest of the image one word a cycle, and then meets program end. -/
theorem phaseRestrictedRunEndsAtProgramEnd : Obligations.PhaseRestrictedRunEndsAtProgramEnd := by
  intro s hp ha hlen hle hsupported
  obtain ⟨k, hk⟩ : ∃ k, s.nextPc.toNat + 4 * k = 4 * s.imem.length :=
    ⟨s.imem.length - s.nextPc.toNat / 4, by omega⟩
  obtain ⟨t, hr, ht, himem, hpc⟩ := reaches_imageEnd (P := RestrictedRun s)
    (fun t w ht hw hf => ht.next hf (hsupported _ w (Nat.div_le_div_right ht.pc) (ht.imem ▸ hw)))
    k s.startRun ⟨hp, rfl, rfl, rfl, Nat.le_refl _⟩ hlen hk
  have hcount : (4 * s.imem.length - s.nextPc.toNat) / 4 = k := by omega
  rw [hcount]
  exact ⟨k + 1, t.commit, run_of_reaches_end hr (by rw [himem]; exact hpc.ge), hpc, ht.dmem, ht.regs, rfl⟩

/-- Settles O48: every word completes a cycle and advances the PC by 4. -/
theorem straightLineRunCompletesOneCyclePerWord : Obligations.StraightLineRunCompletesOneCyclePerWord := by
  intro s hp hpc0 hlen hops
  obtain ⟨t, hr, ht, himem, hpc⟩ := reaches_imageEnd (P := StraightLineRun s)
    (fun t w ht hw hf _ => ht.next hf (hops w (ht.imem ▸ List.mem_of_getElem? hw)))
    s.imem.length s.startRun ⟨hp, rfl, rfl⟩ hlen (by rw [State.nextPc_startRun, hpc0]; exact Nat.zero_add _)
  exact ⟨s.imem.length + 1, t.commit, run_of_reaches_end hr (by rw [himem]; exact hpc.ge), hpc, ht.dmem, ht.imem⟩

end

section
/-! SUPPORT. A word under the masks of the opcode table, and what an R-format instruction does for each code the ALU
control ROM gives its function field. -/

namespace Sys2Proof

/-! ### A word under the row masks (R76, R77) -/

/-- The opcode mask keeps bits 31 to 26. -/
theorem opcodeMask_bit {k : Nat} (hk : k < 32) : (0xFC000000 : Word).getLsbD k = decide (26 ≤ k) := by
  revert k; decide

/-- The mask of the R-format rows keeps bits 31 to 26 and bits 5 to 0. -/
theorem functMask_bit {k : Nat} (hk : k < 32) : (0xFC00003F : Word).getLsbD k = (decide (26 ≤ k) || decide (k < 6)) := by
  revert k; decide

theorem and_opcodeMask (w : Word) : w &&& 0xFC000000 = (decodeFields w).opcode ++ 0#26 := by
  apply BitVec.eq_of_getLsbD_eq
  intro k hk
  simp only [decodeFields, BitVec.getLsbD_and, opcodeMask_bit hk, BitVec.getLsbD_append, BitVec.getLsbD_extractLsb']
  by_cases hlow : k < 26
  · simp [hlow, show ¬ 26 ≤ k by omega]
  · simp [hlow, show 26 ≤ k by omega, show k - 26 < 6 by omega]

theorem and_functMask (w : Word) :
    w &&& 0xFC00003F = (decodeFields w).opcode ++ 0#20 ++ (decodeFields w).funct := by
  apply BitVec.eq_of_getLsbD_eq
  intro k hk
  simp only [decodeFields, BitVec.getLsbD_and, functMask_bit hk, BitVec.getLsbD_append, BitVec.getLsbD_extractLsb']
  by_cases hfunct : k < 6
  · simp [hfunct]
  · by_cases hmid : k < 26
    · simp [hfunct, show ¬ 26 ≤ k by omega, show k - 6 < 20 by omega]
    · simp [hfunct, show 26 ≤ k by omega, show ¬ k - 6 < 20 by omega, show k - 6 - 20 < 6 by omega,
        show 26 + (k - 6 - 20) = k by omega]

theorem encodeR_and_functMask (rs rt rd : RegIdx) (shamt : Shamt) (funct : Funct) :
    encodeR rs rt rd shamt funct &&& 0xFC00003F = 0#6 ++ 0#20 ++ funct := by
  rw [and_functMask, encodeR_opcode, encodeR_funct]
  rfl

theorem encodeR_and_opcodeMask (rs rt rd : RegIdx) (shamt : Shamt) (funct : Funct) :
    encodeR rs rt rd shamt funct &&& 0xFC000000 = 0 := by
  rw [and_opcodeMask, encodeR_opcode]
  rfl

/-- A fallback is well-formed exactly where its function code names no operation (R79). -/
theorem wf_rFallback_iff (rd rs rt : RegIdx) (shamt : Shamt) (funct : Funct) :
    (Instr.rFallback rd rs rt shamt funct).wf = true ↔ funct ∉ namedFuncts := by
  simp [Instr.wf]

end Sys2Proof

namespace Sys2Proof.Machine

/-- A function code that names no operation selects the default, AND (R96). -/
theorem aluControl_fallback {funct : Funct} (h : funct ∉ namedFuncts) : aluControl 2 funct = .ok 0 := by
  simp only [namedFuncts, List.mem_cons, List.not_mem_nil, or_false, not_or] at h
  simp only [aluControl, h, if_false]
  rfl

/-- Set-less-than compares the operands as signed integers (R113). -/
theorem aluResult_slt (a b : Word) : aluResult a b 7 = some (if a.toInt < b.toInt then 1 else 0) := by
  simp only [← BitVec.slt_iff_toInt_lt]
  rfl

section RFormat

variable {i : Instr} {rd rs rt : RegIdx} {shamt : Shamt} {funct : Funct} {code : AluCode} {s : State} {v : Word}

/-- The control vector of every R-format word is the row of opcode 0 (R91). -/
theorem controlOf_rformat (hi : encode i = encodeR rs rt rd shamt funct) (hcode : aluControl 2 funct = .ok code) :
    controlOf i = .ok ({ regDst := true, aluOp := 2, regWrite := true }, code) := by
  simp only [controlOf, hi, encodeR_opcode, encodeR_funct, mainControl_rtype, hcode]

/-- An R-format instruction stages the ALU's result on x[rs] and x[rt] into `rd`, and PC+4 (R166). -/
theorem exec_rformat (hi : encode i = encodeR rs rt rd shamt funct) (hcode : aluControl 2 funct = .ok code)
    (hv : aluResult (s.readReg rs) (s.readReg rt) code = some v) (hp : s.phaseRestricted = false) :
    exec i s = .next { s with pendReg := some (rd, v), pendPc := some (s.pc + 4) } := by
  have h := datapath_rtype (encodeR rs rt rd shamt funct) s code v hp (encodeR_opcode ..)
    (by rwa [encodeR_funct]) (by rwa [encodeR_rs, encodeR_rt])
  rwa [encodeR_rd, ← hi, ← exec_eq_datapath] at h

end RFormat

end Sys2Proof.Machine
end

section
open Sys2Proof Sys2Proof.Machine

/-- Settles O19: function code 32 selects the sum. -/
theorem addStagesTheSum : Obligations.AddStagesTheSum := by
  intro rd rs rt sh s
  exact ⟨encodeR_and_functMask .., controlOf_rformat rfl rfl, exec_rformat rfl rfl rfl⟩

/-- Settles O20: function code 34 selects the difference. -/
theorem subStagesTheDifference : Obligations.SubStagesTheDifference := by
  intro rd rs rt sh s
  exact ⟨encodeR_and_functMask .., controlOf_rformat rfl rfl, exec_rformat rfl rfl rfl⟩

/-- Settles O21: function code 36 selects the conjunction. -/
theorem andStagesTheConjunction : Obligations.AndStagesTheConjunction := by
  intro rd rs rt sh s
  exact ⟨encodeR_and_functMask .., controlOf_rformat rfl rfl, exec_rformat rfl rfl rfl⟩

/-- Settles O22: function code 37 selects the disjunction. -/
theorem orStagesTheDisjunction : Obligations.OrStagesTheDisjunction := by
  intro rd rs rt sh s
  exact ⟨encodeR_and_functMask .., controlOf_rformat rfl rfl, exec_rformat rfl rfl rfl⟩

/-- Settles O23: function code 42 selects set-less-than, which compares signed integers. -/
theorem sltStagesTheSignedComparison : Obligations.SltStagesTheSignedComparison := by
  intro rd rs rt sh s
  exact ⟨encodeR_and_functMask .., controlOf_rformat rfl rfl, exec_rformat rfl rfl (aluResult_slt _ _)⟩

/-- Settles O24: a function code that names no operation selects the default of the ALU control ROM, the conjunction. -/
theorem rFallbackStagesTheConjunction : Obligations.RFallbackStagesTheConjunction := by
  intro rd rs rt sh funct s hwf
  have hcode := aluControl_fallback ((wf_rFallback_iff rd rs rt sh funct).1 hwf)
  exact ⟨encodeR_and_opcodeMask .., controlOf_rformat rfl hcode, exec_rformat rfl hcode rfl⟩

/-- Settles O30: the control ROMs have a row for every instruction, so each passes to the phase restriction. -/
theorem phaseRestrictedCycleOnlyAdvances : Obligations.PhaseRestrictedCycleOnlyAdvances :=
  fun i _ hp => exec_restricted i hp

end

section
/-! SUPPORT. An I-format word under the opcode mask, its control row, and what `addi`, `lw` and `sw` do outside the
phase restriction. -/

namespace Sys2Proof

theorem encodeI_and_opcodeMask (opcode : Opcode) (rs rt : RegIdx) (imm : Imm16) :
    encodeI opcode rs rt imm &&& 0xFC000000 = opcode ++ 0#26 := by
  rw [and_opcodeMask, encodeI_opcode]

end Sys2Proof

namespace Sys2Proof.Machine

/-- A register without a pending write reads after the commit as before it. -/
theorem State.readReg_commit_of_none {s : State} (h : s.pendReg = none) (i : RegIdx) :
    s.commit.readReg i = s.readReg i :=
  State.readReg_congr s s.commit i (State.committedRegs_of_none h) rfl

/-- The control vector of an I-format word is the row of its opcode, and the row's ALUOp alone selects the ALU code: the
bits in the function field's place are the immediate's (R91, R95). -/
theorem controlOf_iformat {i : Instr} {opcode : Opcode} {rs rt : RegIdx} {imm : Imm16} {ctl : Control} {code : AluCode}
    (hi : encode i = encodeI opcode rs rt imm) (hctl : mainControl opcode = .ok ctl)
    (hcode : ∀ funct, aluControl ctl.aluOp funct = .ok code) : controlOf i = .ok (ctl, code) := by
  simp only [controlOf, hi, encodeI_opcode, hctl, hcode]

section IFormat

variable {rt rs : RegIdx} {imm : Imm16} {s : State} (hp : s.phaseRestricted = false)
include hp

/-- `addi` stages the sum into `rt` (R180). -/
theorem exec_addi : exec (.addi rt rs imm) s =
    .next { s with pendReg := some (rt, s.readReg rs + sext imm), pendPc := some (s.pc + 4) } := by
  have h := datapath_addi (encodeI 8 rs rt imm) s hp (encodeI_opcode ..)
  rwa [encodeI_rs, encodeI_rt, encodeI_imm] at h

/-- `lw` at an address that exists stages the word there into `rt` (R181). -/
theorem exec_lw_of_exists (hx : dmemExists s.params (s.readReg rs + sext imm) = true) : exec (.lw rt rs imm) s =
    .next { s with pendReg := some (rt, s.dmem.readWord (s.readReg rs + sext imm)), pendPc := some (s.pc + 4) } := by
  rw [exec_eq_datapath, encode, datapath_lw _ s hp (encodeI_opcode ..)]
  simp only [encodeI_rs, encodeI_rt, encodeI_imm, (dataFault_none_iff _ _).2 hx]
  rfl

/-- `lw` stops with the model fault of its access (R181, R56). -/
theorem exec_lw_of_dataFault {e : ModelFault} (hf : dataFault s.params (s.readReg rs + sext imm) = some e) :
    exec (.lw rt rs imm) s = .fault (.model e) := by
  rw [exec_eq_datapath, encode, datapath_lw _ s hp (encodeI_opcode ..)]
  simp only [encodeI_rs, encodeI_imm, hf]
  rfl

/-- `sw` at an address that exists stores x[rt] there (R182). -/
theorem exec_sw_of_exists (hx : dmemExists s.params (s.readReg rs + sext imm) = true) : exec (.sw rt rs imm) s =
    .next { s with
      dmem := s.dmem.writeWord (s.readReg rs + sext imm) (s.readReg rt), pendPc := some (s.pc + 4) } := by
  rw [exec_eq_datapath, encode, datapath_sw _ s hp (encodeI_opcode ..)]
  simp only [encodeI_rs, encodeI_rt, encodeI_imm, (dataFault_none_iff _ _).2 hx]
  rfl

/-- `sw` stops with the model fault of its access (R182, R57). -/
theorem exec_sw_of_dataFault {e : ModelFault} (hf : dataFault s.params (s.readReg rs + sext imm) = some e) :
    exec (.sw rt rs imm) s = .fault (.model e) := by
  rw [exec_eq_datapath, encode, datapath_sw _ s hp (encodeI_opcode ..)]
  simp only [encodeI_rs, encodeI_imm, hf]
  rfl

/-- The next cycle after a load sees the word in the loaded register, or 0 in a hardwired register 0. -/
theorem exec_lw_commit (hx : dmemExists s.params (s.readReg rs + sext imm) = true) :
    ∃ u, exec (.lw rt rs imm) s = .next u ∧ u.commit.readReg rt =
      if s.params.r0Hardwired && rt == 0 then 0 else s.dmem.readWord (s.readReg rs + sext imm) :=
  ⟨_, exec_lw_of_exists hp hx, State.readReg_commit_stageReg_same s rt _⟩

/-- The next cycle after a store with nothing pending sees the stored word, and everything an access reads otherwise
unchanged. -/
theorem exec_sw_commit (hx : dmemExists s.params (s.readReg rs + sext imm) = true) (hnone : s.pendReg = none) :
    ∃ t, exec (.sw rt rs imm) s = .next t ∧
      t.commit.dmem = s.dmem.writeWord (s.readReg rs + sext imm) (s.readReg rt) ∧ t.commit.params = s.params ∧
      t.commit.phaseRestricted = s.phaseRestricted ∧ ∀ i, t.commit.readReg i = s.readReg i :=
  ⟨_, exec_sw_of_exists hp hx, rfl, rfl, rfl, State.readReg_commit_of_none hnone⟩

end IFormat

end Sys2Proof.Machine
end

section
open Sys2Proof Sys2Proof.Machine

/-- Settles O25: the row of opcode 8 selects the sum with the immediate. -/
theorem addiStagesTheSum : Obligations.AddiStagesTheSum := by
  intro rt rs imm s
  exact ⟨encodeI_and_opcodeMask .., controlOf_iformat rfl mainControl_addi aluControl_add, exec_addi⟩

/-- Settles O26, by the two checks of the access and the load at an address that exists. -/
theorem lwStagesTheLoadedWord : Obligations.LwStagesTheLoadedWord := by
  intro rt rs imm s
  refine ⟨encodeI_and_opcodeMask .., controlOf_iformat rfl mainControl_lw aluControl_add, fun hp => ⟨?_, ?_, ?_⟩⟩
  · exact fun ha => exec_lw_of_dataFault hp (dataFault_of_misaligned _ ha)
  · exact fun ha hx => exec_lw_of_dataFault hp (dataFault_of_absent _ ha hx)
  · exact exec_lw_of_exists hp

/-- Settles O27, by the two checks of the access and the store at an address that exists. -/
theorem swStoresTheWord : Obligations.SwStoresTheWord := by
  intro rt rs imm s
  refine ⟨encodeI_and_opcodeMask .., controlOf_iformat rfl mainControl_sw aluControl_add, fun hp => ⟨?_, ?_, ?_⟩⟩
  · exact fun ha => exec_sw_of_dataFault hp (dataFault_of_misaligned _ ha)
  · exact fun ha hx => exec_sw_of_dataFault hp (dataFault_of_absent _ ha hx)
  · exact exec_sw_of_exists hp

/-- Settles O34: nothing is pending, so the base register reads the same in the next cycle, and the load finds the word
stored. -/
theorem storeThenLoadGivesTheStoredWord : Obligations.StoreThenLoadGivesTheStoredWord := by
  intro rt rs rt' imm s hm hnone hp hx
  obtain ⟨t, hsw, hdmem, hparams, hmode, hregs⟩ := exec_sw_commit (rt := rt) hp hx hnone
  obtain ⟨u, hlw, hread⟩ := exec_lw_commit (rt := rt') (hmode.trans hp) (by rwa [hparams, hregs])
  refine ⟨t, u, hsw, hlw, ?_⟩
  rw [hread, hparams, hdmem, hregs, Memory.readWord_writeWord_of_exists _ hm hx]

end

section
/-! SUPPORT. The branch decision in terms of the operands, a J-format word under the opcode mask, and what `beq` and `j`
do outside the phase restriction. -/

namespace Sys2Proof

theorem encodeJ_and_opcodeMask (idx : Target) : encodeJ idx &&& 0xFC000000 = 2#6 ++ 0#26 := by
  rw [and_opcodeMask, encodeJ_opcode]
  rfl

end Sys2Proof

namespace Sys2Proof.Machine

/-! ### The branch decision (R110, R121) -/

/-- Subtraction wraps, and still its result is 0 only on equal operands. -/
theorem zeroFlag_sub_iff (a b : Word) : zeroFlag (a - b) = true ↔ a = b := by
  rw [zeroFlag, beq_iff_eq]
  exact sub_eq_zero

theorem branchZero_iff (mode : BranchZeroMode) (zero : Bool) :
    branchZero mode zero = true ↔ mode = .aluZero ∧ zero = true := by
  cases mode <;> simp [branchZero]

/-! ### The control row of `j` -/

theorem controlOf_j (idx : Target) : controlOf (.j idx) = .ok ({ jump := true }, 2) := by
  simp only [controlOf, encode, encodeJ_opcode, mainControl_j, aluControl_add]

/-! ### Outside the phase restriction -/

/-- `beq` stages the branch address where ALU_ZERO is set and the registers are equal, else PC+4 (R200, R121). -/
theorem exec_beq {rs rt : RegIdx} {off : Imm16} {s : State} (hp : s.phaseRestricted = false) :
    exec (.beq rs rt off) s = .next { s with
      pendPc := some (
        if s.params.branchZero = .aluZero ∧ s.readReg rs = s.readReg rt then branchAddr (pcPlus4 s.pc) (sext off)
        else pcPlus4 s.pc) } := by
  rw [exec_eq_datapath, encode, datapath_beq _ s hp (encodeI_opcode ..)]
  simp only [encodeI_rs, encodeI_rt, encodeI_imm, branchZero_iff, zeroFlag_sub_iff]

/-- `j` stages the top four bits of PC+4, the index and two zeros (R201, R103). -/
theorem exec_j {idx : Target} {s : State} (hp : s.phaseRestricted = false) :
    exec (.j idx) s = .next { s with pendPc := some ((pcPlus4 s.pc).extractLsb' 28 4 ++ idx ++ 0#2) } := by
  rw [exec_eq_datapath, encode, datapath_j _ s hp (encodeJ_opcode ..), jumpAddr_eq_append, encodeJ_target]

end Sys2Proof.Machine
end

section
open Sys2Proof Sys2Proof.Machine

/-- Settles O28: the row of opcode 4 subtracts, and the difference is 0 exactly on equal registers. -/
theorem beqStagesTheSelectedPc : Obligations.BeqStagesTheSelectedPc := by
  intro rs rt off s
  exact ⟨encodeI_and_opcodeMask .., controlOf_iformat rfl mainControl_beq aluControl_sub, exec_beq⟩

/-- Settles O29: the row of opcode 2 selects the jump address, whose middle bits are the index. -/
theorem jStagesTheJumpAddress : Obligations.JStagesTheJumpAddress := by
  intro idx s
  exact ⟨encodeJ_and_opcodeMask idx, controlOf_j idx, exec_j⟩

end

section
/-! SUPPORT. The stops of one cycle in the order of the steps that test them (R228): a misaligned fetch at step 4, and
what is left to stop a cycle that has its word. -/

namespace Sys2Proof.Machine

variable {s : State} {w : Word}

theorem State.fetch_of_misaligned (hlt : s.pc.toNat < 4 * s.imem.length) (ha : s.pc.toNat % 4 ≠ 0) :
    s.fetch = .error (.model (.misalignedFetch s.pc)) := by
  rcases s.fetch_cases with ⟨hx, -⟩ | ⟨-, -, hf⟩ | ⟨-, hal, -⟩
  · exact absurd ((State.exhausted_iff s).1 hx) (by omega)
  · exact hf
  · exact absurd ((aligned_iff _).1 hal) ha

/-- Once its word is fetched, a cycle is stopped by the decoder or by the data-memory checks alone (R220, R56, R57). -/
theorem step_fault_of_fetch_ok {f : Fault} (hf : s.commit.fetch = .ok w) (h : step s = .fault f) :
    f = .control (.unsupportedOpcode s.nextPc w (decodeFields w).opcode) ∨
    ∃ addr e, dataFault s.params addr = some e ∧ f = .model e := by
  cases hd : decode w with
  | error k =>
    cases (step_of_decode_error hf hd).symm.trans h
    exact .inl rfl
  | ok i =>
    rw [step_of_decode_ok hf hd] at h
    cases he : exec i s.commit with
    | next t => rw [he] at h; cases h
    | fault f' =>
      rw [he] at h
      cases h
      exact .inr (exec_fault (s := s.commit) he)
    | refused r => rw [he] at h; cases h

theorem step_ne_programEnd_of_fetch_ok (hf : s.commit.fetch = .ok w) : step s ≠ .fault .programEnd := by
  intro h
  rcases step_fault_of_fetch_ok hf h with hc | ⟨_, _, _, hm⟩
  · cases hc
  · cases hm

theorem step_ne_misalignedFetch_of_fetch_ok (hf : s.commit.fetch = .ok w) (pc : Word) :
    step s ≠ .fault (.model (.misalignedFetch pc)) := by
  intro h
  rcases step_fault_of_fetch_ok hf h with hc | ⟨_, _, hd, hm⟩
  · cases hc
  · cases hm
    rcases dataFault_some hd with he | he <;> cases he

end Sys2Proof.Machine
end

section
open Sys2Proof Sys2Proof.Machine

/-- Settles O37: program end is tested before the alignment, and neither stop is left once the word is fetched. -/
theorem stopsComeInTheSpecsOrder : Obligations.StopsComeInTheSpecsOrder := by
  intro s
  refine ⟨step_of_exhausted, fun hlt ha => ?_, fun w ha hw => ?_⟩
  · exact step_of_fetch_error (State.fetch_of_misaligned (s := s.commit) hlt ha)
  · have hf : s.commit.fetch = .ok w := State.fetch_of_getElem? ha hw
    exact ⟨step_ne_programEnd_of_fetch_ok hf, step_ne_misalignedFetch_of_fetch_ok hf⟩

end

section
/-! SUPPORT. What is pending while an instruction runs is read by no unit of its cycle, and nothing is pending at the
simulation start. -/

namespace Sys2Proof.Machine

/-! ### Other pending writes -/

/-- The state with other pending writes. -/
def State.withPending (pr : Option (RegIdx × Word)) (pp : Option Word) (s : State) : State :=
  { s with pendReg := pr, pendPc := pp }

@[simp] theorem State.withPending_pc (pr : Option (RegIdx × Word)) (pp : Option Word) (s : State) :
    (s.withPending pr pp).pc = s.pc := rfl

@[simp] theorem State.phaseRestricted_withPending (pr : Option (RegIdx × Word)) (pp : Option Word) (s : State) :
    (s.withPending pr pp).phaseRestricted = s.phaseRestricted := rfl

@[simp] theorem backSignals_withPending (f : FrontSignals) (pr : Option (RegIdx × Word)) (pp : Option Word) (s : State) :
    backSignals f (s.withPending pr pp) = backSignals f s := rfl

/-- Steps 10 to 12 stage the same register write from every state, or leave pending what was pending (R142). -/
theorem retire_pendReg_cases (f : FrontSignals) (b : BackSignals) (m : Memory) (s s' : State) :
    (retire f b m s').pendReg = (retire f b m s).pendReg ∨
    ((retire f b m s).pendReg = s.pendReg ∧ (retire f b m s').pendReg = s'.pendReg) := by
  cases hw : f.control.regWrite with
  | false => exact .inr ⟨retire_pendReg_of_not_regWrite _ _ _ _ hw, retire_pendReg_of_not_regWrite _ _ _ _ hw⟩
  | true =>
    cases hv : b.writeback with
    | some v => exact .inl (by simp only [retire_pendReg_of_regWrite _ _ _ _ hw hv])
    | none => exact .inr (by simp [retire, hw, hv])

/-- A cycle that completes also completes with other pending writes, and leaves the same data memory and the same staged
writes (R244). -/
theorem datapath_withPending {w : Word} {s t : State} (h : datapath w s = .next t) (pr : Option (RegIdx × Word))
    (pp : Option Word) :
    ∃ u, datapath w (s.withPending pr pp) = .next u ∧ u.regs = s.regs ∧ u.dmem = t.dmem ∧ u.pendPc = t.pendPc ∧
      (u.pendReg = t.pendReg ∨ (t.pendReg = s.pendReg ∧ u.pendReg = pr)) := by
  obtain ⟨f, hf, ⟨hp, rfl⟩ | ⟨hp, b, m, hb, rfl⟩⟩ := datapath_next w s t h
  · exact ⟨(s.withPending pr pp).stagePc f.pcPlus4, by simp [datapath, hf, hp], rfl, rfl, rfl, .inr ⟨rfl, rfl⟩⟩
  · exact ⟨retire f b m (s.withPending pr pp), by simp [datapath, hf, hp, hb], rfl, rfl, rfl,
      retire_pendReg_cases f b m s (s.withPending pr pp)⟩

/-! ### The simulation start -/

theorem State.inv_start {entry : Word} {dmem : Memory} (image : List Word) (regs : Vector Word 32) (mode : Nat)
    (p : Params) (he : entry.toNat % 4 = 0) (hm : dmem.wf) : (State.start image entry regs dmem mode p).Inv :=
  ⟨hm, (aligned_iff entry).2 he, fun _ hpend => by cases hpend⟩

/-- The commit takes a state that holds its PC as pending to the state that holds it as committed (R25). -/
theorem State.commit_pendingPc {s : State} (hr : s.pendReg = none) (hp : s.pendPc = none) (pc' : Word) :
    State.commit { s with pc := pc', pendPc := some s.pc } = s :=
  calc State.commit { s with pc := pc', pendPc := some s.pc }
    _ = s.commit := by simp [State.commit, State.commitPc, State.commitReg, State.nextPc, State.committedRegs, hp]
    _ = s := s.commit_of_none hr hp

end Sys2Proof.Machine
end

section
open Sys2Proof Sys2Proof.Machine

/-- Settles O17: every instruction is one cycle of the datapath, which reads neither pending write. -/
theorem stagedWritesAreNotObservedInTheirCycle : Obligations.StagedWritesAreNotObservedInTheirCycle := by
  intro i s t h
  rw [exec_eq_datapath] at h
  obtain ⟨hregs, hpc, -⟩ := datapath_frame _ _ _ h
  refine ⟨hregs, hpc, fun pr pp => ?_⟩
  rw [exec_eq_datapath]
  exact datapath_withPending h pr pp

/-- Settles O44: the entry is the only PC, and the reset state is such a start. -/
theorem startHasInv : Obligations.StartHasInv :=
  ⟨fun image _ regs _ mode p he hm => State.inv_start image regs mode p he hm,
    State.inv_start [] resetRegs resetMode resetParams (by decide) (by decide)⟩

/-- Settles O45: the fields are the inputs, and the two commits start from a state with no register write pending. -/
theorem simulationStart : Obligations.SimulationStart := by
  intro image entry regs dmem mode p
  exact ⟨rfl, rfl, rfl, rfl, rfl, rfl, rfl, rfl, State.commit_of_none _ rfl rfl, State.commit_pendingPc rfl rfl⟩

end

section
/-! SUPPORT. The decoder and the encoder as inverses between the words that decode and the well-formed instructions, and
an R-format word whose bits 10 to 6 differ. -/

namespace Sys2Proof

/-! ### Round trips (R72, R76, R77, R79) -/

theorem decode_encode {i : Instr} (h : i.wf = true) : decode (encode i) = .ok i := by
  cases i with
  | add => simp [encode, decode_rtype, decodeRType_add]
  | sub => simp [encode, decode_rtype, decodeRType_sub]
  | and => simp [encode, decode_rtype, decodeRType_and]
  | or => simp [encode, decode_rtype, decodeRType_or]
  | slt => simp [encode, decode_rtype, decodeRType_slt]
  | rFallback rd rs rt shamt funct =>
    have hfunct := (wf_rFallback_iff rd rs rt shamt funct).1 h
    simp [encode, decode_rtype, decodeRType_fallback, hfunct]
  | addi => simp [encode, decode_addi]
  | lw => simp [encode, decode_lw]
  | sw => simp [encode, decode_sw]
  | beq => simp [encode, decode_beq]
  | j => simp [encode, decode_j]

/-- An opcode-0 word decodes to a fallback only where its function code names no operation (R77, R79). -/
theorem wf_decodeRType (w : Word) : (decodeRType w).wf = true := by
  by_cases hfunct : (decodeFields w).funct ∈ namedFuncts
  · simp only [namedFuncts, List.mem_cons, List.not_mem_nil, or_false] at hfunct
    rcases hfunct with h | h | h | h | h
    · rw [decodeRType_add h, Instr.wf]
    · rw [decodeRType_sub h, Instr.wf]
    · rw [decodeRType_and h, Instr.wf]
    · rw [decodeRType_or h, Instr.wf]
    · rw [decodeRType_slt h, Instr.wf]
  · rw [decodeRType_fallback hfunct]
    exact (wf_rFallback_iff ..).2 hfunct

theorem wf_of_decode {w : Word} {i : Instr} (h : decode w = .ok i) : i.wf = true := by
  have hop := supported_of_decode_ok h
  simp only [Machine.supportedOpcodes, List.mem_cons, List.not_mem_nil, or_false] at hop
  rcases hop with hop | hop | hop | hop | hop | hop
  · cases (decode_rtype hop).symm.trans h
    exact wf_decodeRType w
  · cases (decode_j hop).symm.trans h
    rfl
  · cases (decode_beq hop).symm.trans h
    rfl
  · cases (decode_addi hop).symm.trans h
    rfl
  · cases (decode_lw hop).symm.trans h
    rfl
  · cases (decode_sw hop).symm.trans h
    rfl

end Sys2Proof

namespace Sys2Proof.Machine

/-! ### Bits 10 to 6 (R72) -/

/-- Two instructions whose R-format words agree outside bits 10 to 6 have one outcome. -/
theorem exec_congr_shamt {i i' : Instr} {rs rt rd : RegIdx} {shamt shamt' : Shamt} {funct : Funct}
    (hi : encode i = encodeR rs rt rd shamt funct) (hi' : encode i' = encodeR rs rt rd shamt' funct) (s : State) :
    exec i s = exec i' s := by
  cases hp : s.phaseRestricted with
  | true => exact (exec_restricted i hp).trans (exec_restricted i' hp).symm
  | false =>
    obtain ⟨code, hcode, hmem⟩ := aluControl_rtype_code funct
    obtain ⟨v, hv⟩ := aluResult_of_code (s.readReg rs) (s.readReg rt) hmem
    exact (exec_rformat hi hcode hv hp).trans (exec_rformat hi' hcode hv hp).symm

end Sys2Proof.Machine
end

section
open Sys2Proof Sys2Proof.Machine

/-- Settles O2, by the fields of the instruction's word. -/
theorem decodeEncodeRoundTrip : Obligations.DecodeEncodeRoundTrip :=
  fun _ => decode_encode

/-- Settles O3: the decoder takes a fallback only outside the named function codes, and a word is made of its fields. -/
theorem encodeDecodeRoundTrip : Obligations.EncodeDecodeRoundTrip :=
  fun _ _ h => ⟨wf_of_decode h, encode_of_decode h⟩

/-- Settles O5: twelve closed words, each decoded by evaluation. -/
theorem sampleWordsDecode : Obligations.SampleWordsDecode := by
  unfold Obligations.SampleWordsDecode
  decide

/-- Settles O6: in each of the six pairs the two words agree outside bits 10 to 6. -/
theorem undecodedBitsChangeNothing : Obligations.UndecodedBitsChangeNothing := by
  intro rd rs rt sh sh' funct s
  exact ⟨exec_congr_shamt rfl rfl s, exec_congr_shamt rfl rfl s, exec_congr_shamt rfl rfl s,
    exec_congr_shamt rfl rfl s, exec_congr_shamt rfl rfl s, exec_congr_shamt rfl rfl s⟩

end
